-- ==== Sys2Proof/Word.lean ====
section
/-! DEFINITION. The word types of the block and its plainest arithmetic: widths of 00_scope R7, R8, R10, R15 and the
explicit narrowing of 00_scope R18 and 42_alu R130 ("a width is imposed only by an explicit mod 2^k"). -/

namespace Sys2Proof

/-- A byte: a general register, a timer, a memory cell (00_scope R7, R10; 20_memory R50). -/
abbrev Byte := BitVec 8

/-- A 16-bit value: `I`, `pc`, a stack slot, an instruction word (00_scope R8, R9, R15). -/
abbrev Word := BitVec 16

/-- A 4-bit literal field (30_encoding R71). -/
abbrev Nibble := BitVec 4

/-- The 12-bit address literal `nnn` (30_encoding R71). -/
abbrev Addr12 := BitVec 12

/-- A general register's number, V0 to VF (10_state R21). -/
abbrev RegIdx := Fin 16

/-- A keypad line's number (00_scope R11). -/
abbrev KeyIdx := Fin 16

/-- `n mod 256` (42_alu R130). -/
def narrow8 (n : Nat) : Byte := BitVec.ofNat 8 n

/-- `z mod 256`, the non-negative remainder (00_scope R18, 42_alu R130). -/
def narrowInt8 (z : Int) : Byte := BitVec.ofInt 8 z

/-- A natural number as a 16-bit value. -/
def narrow16 (n : Nat) : Word := BitVec.ofNat 16 n

end Sys2Proof
end

