-- ==== Sys2Proof/Syntax.lean ====
section
/-! DEFINITION. The 34 instructions of 30_encoding R76, one constructor per row of spec/opcode_table.json, and the
assembler forms of 30_encoding R80 and R81. An instruction keeps every bit of its word: where the decoder ignores a
field (30_encoding R77: 5xyN, 8xy6, 8xyE) the ignored nibble is the constructor's last argument. -/

namespace Sys2Proof

/-- The instructions, in the order of 30_encoding R76. Register fields are numbers below 16, `kk` is 8 bits, `nnn` is 12
bits and `n` is 4 bits (30_encoding R71, R73), so every term is encodable. -/
inductive Instr where
  /-- CLS, 00E0 (44_display R171). -/
  | cls
  /-- RET, 00EE (41_control_flow R111). -/
  | ret
  /-- JP addr, 1nnn (41_control_flow R112). -/
  | jp (nnn : Addr12)
  /-- CALL addr, 2nnn (41_control_flow R113). -/
  | call (nnn : Addr12)
  /-- SE Vx,kk, 3xkk (41_control_flow R114). -/
  | seImm (x : RegIdx) (kk : Byte)
  /-- SNE Vx,kk, 4xkk (41_control_flow R115). -/
  | sneImm (x : RegIdx) (kk : Byte)
  /-- SE Vx,Vy, 5xyN, the low nibble ignored (41_control_flow R116; 30_encoding R77). -/
  | seReg (x y : RegIdx) (ignored : Nibble)
  /-- SNE Vx,Vy, 9xy0 (41_control_flow R117). -/
  | sneReg (x y : RegIdx)
  /-- LD Vx,kk, 6xkk (42_alu R131). -/
  | ldImm (x : RegIdx) (kk : Byte)
  /-- ADD Vx,kk, 7xkk (42_alu R132). -/
  | addImm (x : RegIdx) (kk : Byte)
  /-- LD Vx,Vy, 8xy0 (42_alu R133). -/
  | ldReg (x y : RegIdx)
  /-- OR Vx,Vy, 8xy1 (42_alu R134). -/
  | orReg (x y : RegIdx)
  /-- AND Vx,Vy, 8xy2 (42_alu R135). -/
  | andReg (x y : RegIdx)
  /-- XOR Vx,Vy, 8xy3 (42_alu R136). -/
  | xorReg (x y : RegIdx)
  /-- ADD Vx,Vy, 8xy4 (42_alu R137). -/
  | addReg (x y : RegIdx)
  /-- SUB Vx,Vy, 8xy5 (42_alu R138). -/
  | subReg (x y : RegIdx)
  /-- SHR Vx, 8xy6, the y nibble ignored (42_alu R139; 30_encoding R77). -/
  | shr (x : RegIdx) (ignored : Nibble)
  /-- SUBN Vx,Vy, 8xy7 (42_alu R140). -/
  | subnReg (x y : RegIdx)
  /-- SHL Vx, 8xyE, the y nibble ignored (42_alu R141; 30_encoding R77). -/
  | shl (x : RegIdx) (ignored : Nibble)
  /-- LD I,addr, Annn (43_index_memory R151). -/
  | ldI (nnn : Addr12)
  /-- JP V0,addr, Bnnn (41_control_flow R118). -/
  | jpV0 (nnn : Addr12)
  /-- RND Vx,kk, Cxkk (42_alu R142). -/
  | rnd (x : RegIdx) (kk : Byte)
  /-- DRW Vx,Vy,n, Dxyn (44_display R172). -/
  | drw (x y : RegIdx) (n : Nibble)
  /-- SKP Vx, Ex9E (45_timers_keypad R194). -/
  | skp (x : RegIdx)
  /-- SKNP Vx, ExA1 (45_timers_keypad R195). -/
  | sknp (x : RegIdx)
  /-- LD Vx,DT, Fx07 (45_timers_keypad R191). -/
  | ldVxDt (x : RegIdx)
  /-- LD DT,Vx, Fx15 (45_timers_keypad R192). -/
  | ldDtVx (x : RegIdx)
  /-- LD ST,Vx, Fx18 (45_timers_keypad R193). -/
  | ldStVx (x : RegIdx)
  /-- ADD I,Vx, Fx1E (43_index_memory R152). -/
  | addI (x : RegIdx)
  /-- LD F,Vx, Fx29 (43_index_memory R153). -/
  | ldF (x : RegIdx)
  /-- LD B,Vx, Fx33 (43_index_memory R154). -/
  | ldB (x : RegIdx)
  /-- LD [I],Vx, Fx55 (43_index_memory R155). -/
  | ldMemVx (x : RegIdx)
  /-- LD Vx,[I], Fx65 (43_index_memory R156). -/
  | ldVxMem (x : RegIdx)
  /-- LD Vx,K, Fx0A (45_timers_keypad R197). -/
  | ldVxK (x : RegIdx)
  deriving DecidableEq, Repr

/-- The mnemonic spellings of 30_encoding R80 and R81. One spelling can name several instructions. -/
inductive AsmName where
  | cls | ret | jp | call | se | sne | ld | add | or | and | xor | sub | shr | subn | shl | rnd | drw | skp | sknp
  deriving DecidableEq, Repr

/-- The operand forms of 30_encoding R80. The numbers are plain: whether they fit their field is a check
(WellFormed.lean). -/
inductive AsmOperand where
  /-- `Vx`, `Vy`. -/
  | reg (number : Nat)
  /-- `kk`. -/
  | byte (value : Nat)
  /-- `nnn`, `addr`. -/
  | addr (value : Nat)
  /-- `n`. -/
  | nibble (value : Nat)
  /-- `I`. -/
  | index
  /-- `DT`. -/
  | delayTimer
  /-- `ST`. -/
  | soundTimer
  /-- `K`. -/
  | waitKey
  /-- `F`. -/
  | fontGlyph
  /-- `B`. -/
  | bcd
  /-- `[I]`. -/
  | memAtIndex
  deriving DecidableEq, Repr

/-- One line of assembler text after its words are read: a mnemonic and its operands, destination first
(30_encoding R80). -/
structure AsmLine where
  name     : AsmName
  operands : List AsmOperand
  deriving DecidableEq, Repr

end Sys2Proof
end

