-- ==== Sys2Proof/Decode.lean ====
section
/-! DEFINITION. Decoding and encoding: the field views of 30_encoding R71 and R72, the dispatch key of R74, the
table from id to handler of R75 and R76, a decoder total on any bytes, and the encoder. A word whose id has no entry is
`unassigned` (R78): no instruction, and no fault either (R79). The ids of all rows but CLS and RET are the conventional
ones the spec supplies (30_encoding R76; 93_implementation_defined G1; log 1). -/

namespace Sys2Proof

/-- `w[15:12]`, the top nibble (30_encoding R71). -/
def fieldT (w : Word) : Nibble := w.extractLsb' 12 4

/-- `x(w) = w[11:8]` (30_encoding R71, R72). -/
def fieldX (w : Word) : RegIdx := (w.extractLsb' 8 4).toFin

/-- `y(w) = w[7:4]` (30_encoding R71, R72). -/
def fieldY (w : Word) : RegIdx := (w.extractLsb' 4 4).toFin

/-- `w[7:4]` as bits, for the rows that ignore it (30_encoding R77). -/
def fieldYBits (w : Word) : Nibble := w.extractLsb' 4 4

/-- `n(w) = w[3:0]` (30_encoding R71, R72). -/
def fieldN (w : Word) : Nibble := w.extractLsb' 0 4

/-- `kk(w) = w[7:0]` (30_encoding R71, R72). -/
def fieldKK (w : Word) : Byte := w.extractLsb' 0 8

/-- `nnn(w) = w[11:0]` (30_encoding R71, R72). -/
def fieldNNN (w : Word) : Addr12 := w.extractLsb' 0 12

/-- The mask R74 applies to words of a top nibble. -/
def dispatchMask (t : Nibble) : Word :=
  if t = 0x0#4 then 0xFFFF#16
  else if t = 0x8#4 ∨ t = 0x9#4 then 0xF00F#16
  else if t = 0xE#4 ∨ t = 0xF#4 then 0xF0FF#16
  else 0xF000#16

/-- The dispatch key `id(w)` (30_encoding R74). -/
def dispatchId (w : Word) : Word := w &&& dispatchMask (fieldT w)

/-- Rows 1, 2 and the single-nibble families (30_encoding R76). -/
def decodeTableSingle : List (Word × (Word → Instr)) :=
  [(0x00E0#16, fun _ => .cls),
   (0x00EE#16, fun _ => .ret),
   (0x1000#16, fun w => .jp (fieldNNN w)),
   (0x2000#16, fun w => .call (fieldNNN w)),
   (0x3000#16, fun w => .seImm (fieldX w) (fieldKK w)),
   (0x4000#16, fun w => .sneImm (fieldX w) (fieldKK w)),
   (0x5000#16, fun w => .seReg (fieldX w) (fieldY w) (fieldN w)),
   (0x9000#16, fun w => .sneReg (fieldX w) (fieldY w)),
   (0x6000#16, fun w => .ldImm (fieldX w) (fieldKK w)),
   (0x7000#16, fun w => .addImm (fieldX w) (fieldKK w))]

/-- Family 8 (30_encoding R76). -/
def decodeTableAlu : List (Word × (Word → Instr)) :=
  [(0x8000#16, fun w => .ldReg (fieldX w) (fieldY w)),
   (0x8001#16, fun w => .orReg (fieldX w) (fieldY w)),
   (0x8002#16, fun w => .andReg (fieldX w) (fieldY w)),
   (0x8003#16, fun w => .xorReg (fieldX w) (fieldY w)),
   (0x8004#16, fun w => .addReg (fieldX w) (fieldY w)),
   (0x8005#16, fun w => .subReg (fieldX w) (fieldY w)),
   (0x8006#16, fun w => .shr (fieldX w) (fieldYBits w)),
   (0x8007#16, fun w => .subnReg (fieldX w) (fieldY w)),
   (0x800E#16, fun w => .shl (fieldX w) (fieldYBits w))]

/-- Rows 20 to 25 (30_encoding R76). -/
def decodeTableUpper : List (Word × (Word → Instr)) :=
  [(0xA000#16, fun w => .ldI (fieldNNN w)),
   (0xB000#16, fun w => .jpV0 (fieldNNN w)),
   (0xC000#16, fun w => .rnd (fieldX w) (fieldKK w)),
   (0xD000#16, fun w => .drw (fieldX w) (fieldY w) (fieldN w)),
   (0xE09E#16, fun w => .skp (fieldX w)),
   (0xE0A1#16, fun w => .sknp (fieldX w))]

/-- Family F (30_encoding R76). -/
def decodeTableF : List (Word × (Word → Instr)) :=
  [(0xF007#16, fun w => .ldVxDt (fieldX w)),
   (0xF015#16, fun w => .ldDtVx (fieldX w)),
   (0xF018#16, fun w => .ldStVx (fieldX w)),
   (0xF01E#16, fun w => .addI (fieldX w)),
   (0xF029#16, fun w => .ldF (fieldX w)),
   (0xF033#16, fun w => .ldB (fieldX w)),
   (0xF055#16, fun w => .ldMemVx (fieldX w)),
   (0xF065#16, fun w => .ldVxMem (fieldX w)),
   (0xF00A#16, fun w => .ldVxK (fieldX w))]

/-- The fixed table from id to instruction: exactly 34 ids (30_encoding R75, R76). -/
def decodeTable : List (Word × (Word → Instr)) :=
  decodeTableSingle ++ decodeTableAlu ++ decodeTableUpper ++ decodeTableF

/-- The instruction a word executes; none for an unassigned word (30_encoding R75, R76, R78). -/
def decodeWord (w : Word) : Option Instr :=
  (decodeTable.find? fun row => row.1 == dispatchId w).map fun row => row.2 w

/-- Why bytes are no instruction: too few of them, or a word whose id has no handler, named by the word (30_encoding
R78; the cycle runs it as a no-op, it is no error there). -/
inductive DecodeError where
  | truncated
  | unassigned (word : Word)
  deriving DecidableEq, Repr

/-- The 16-bit word of two bytes, high byte first (20_memory R52). -/
def wordOfBytes (high low : Byte) : Word := high ++ low

/-- The byte at the lower address: bits 15 to 8 (20_memory R52). -/
def highByte (w : Word) : Byte := w.extractLsb' 8 8

/-- The byte at the higher address: bits 7 to 0 (20_memory R52). -/
def lowByte (w : Word) : Byte := w.extractLsb' 0 8

/-- The instruction at the head of a byte list and the bytes after it: one length, two bytes (30_encoding R70). -/
def decodeBytes : List Byte → Except DecodeError (Instr × List Byte)
  | high :: low :: rest =>
    match decodeWord (wordOfBytes high low) with
    | some i => .ok (i, rest)
    | none   => .error (.unassigned (wordOfBytes high low))
  | _ => .error .truncated

/-- The word of a `t x kk` pattern (30_encoding R71). -/
def wordXKK (t : Nibble) (x : RegIdx) (kk : Byte) : Word := t ++ (BitVec.ofFin x : BitVec 4) ++ kk

/-- The word of a `t x y n` pattern, the y nibble given as bits (30_encoding R71). -/
def wordXYN (t : Nibble) (x : RegIdx) (y n : Nibble) : Word := t ++ (BitVec.ofFin x : BitVec 4) ++ y ++ n

/-- The word of a `t nnn` pattern (30_encoding R71). -/
def wordNNN (t : Nibble) (nnn : Addr12) : Word := t ++ nnn

/-- A register number as the 4 bits of its field (30_encoding R71). -/
def regBits (y : RegIdx) : Nibble := BitVec.ofFin y

/-- The word of an instruction, from the patterns of 30_encoding R76. -/
def encode : Instr → Word
  | .cls           => 0x00E0#16
  | .ret           => 0x00EE#16
  | .jp a          => wordNNN 0x1#4 a
  | .call a        => wordNNN 0x2#4 a
  | .seImm x k     => wordXKK 0x3#4 x k
  | .sneImm x k    => wordXKK 0x4#4 x k
  | .seReg x y g   => wordXYN 0x5#4 x (regBits y) g
  | .sneReg x y    => wordXYN 0x9#4 x (regBits y) 0x0#4
  | .ldImm x k     => wordXKK 0x6#4 x k
  | .addImm x k    => wordXKK 0x7#4 x k
  | .ldReg x y     => wordXYN 0x8#4 x (regBits y) 0x0#4
  | .orReg x y     => wordXYN 0x8#4 x (regBits y) 0x1#4
  | .andReg x y    => wordXYN 0x8#4 x (regBits y) 0x2#4
  | .xorReg x y    => wordXYN 0x8#4 x (regBits y) 0x3#4
  | .addReg x y    => wordXYN 0x8#4 x (regBits y) 0x4#4
  | .subReg x y    => wordXYN 0x8#4 x (regBits y) 0x5#4
  | .shr x g       => wordXYN 0x8#4 x g 0x6#4
  | .subnReg x y   => wordXYN 0x8#4 x (regBits y) 0x7#4
  | .shl x g       => wordXYN 0x8#4 x g 0xE#4
  | .ldI a         => wordNNN 0xA#4 a
  | .jpV0 a        => wordNNN 0xB#4 a
  | .rnd x k       => wordXKK 0xC#4 x k
  | .drw x y n     => wordXYN 0xD#4 x (regBits y) n
  | .skp x         => wordXKK 0xE#4 x 0x9E#8
  | .sknp x        => wordXKK 0xE#4 x 0xA1#8
  | .ldVxDt x      => wordXKK 0xF#4 x 0x07#8
  | .ldDtVx x      => wordXKK 0xF#4 x 0x15#8
  | .ldStVx x      => wordXKK 0xF#4 x 0x18#8
  | .addI x        => wordXKK 0xF#4 x 0x1E#8
  | .ldF x         => wordXKK 0xF#4 x 0x29#8
  | .ldB x         => wordXKK 0xF#4 x 0x33#8
  | .ldMemVx x     => wordXKK 0xF#4 x 0x55#8
  | .ldVxMem x     => wordXKK 0xF#4 x 0x65#8
  | .ldVxK x       => wordXKK 0xF#4 x 0x0A#8

/-- The id column of 30_encoding R76. -/
def rowId : Instr → Word
  | .cls => 0x00E0#16       | .ret => 0x00EE#16       | .jp _ => 0x1000#16       | .call _ => 0x2000#16
  | .seImm _ _ => 0x3000#16 | .sneImm _ _ => 0x4000#16 | .seReg _ _ _ => 0x5000#16 | .sneReg _ _ => 0x9000#16
  | .ldImm _ _ => 0x6000#16 | .addImm _ _ => 0x7000#16 | .ldReg _ _ => 0x8000#16 | .orReg _ _ => 0x8001#16
  | .andReg _ _ => 0x8002#16 | .xorReg _ _ => 0x8003#16 | .addReg _ _ => 0x8004#16 | .subReg _ _ => 0x8005#16
  | .shr _ _ => 0x8006#16   | .subnReg _ _ => 0x8007#16 | .shl _ _ => 0x800E#16   | .ldI _ => 0xA000#16
  | .jpV0 _ => 0xB000#16    | .rnd _ _ => 0xC000#16   | .drw _ _ _ => 0xD000#16  | .skp _ => 0xE09E#16
  | .sknp _ => 0xE0A1#16    | .ldVxDt _ => 0xF007#16  | .ldDtVx _ => 0xF015#16   | .ldStVx _ => 0xF018#16
  | .addI _ => 0xF01E#16    | .ldF _ => 0xF029#16     | .ldB _ => 0xF033#16      | .ldMemVx _ => 0xF055#16
  | .ldVxMem _ => 0xF065#16 | .ldVxK _ => 0xF00A#16

/-- The two bytes of an instruction as memory holds them (20_memory R52). -/
def encodeBytes (i : Instr) : List Byte := [highByte (encode i), lowByte (encode i)]

/-- The instruction the decoder reads from the word whose bits below `nbits` are those of `w` and whose others are 0,
its bytes laid out as memory holds them, high byte first (20_memory R52). -/
def decodeTableWord (nbits w : Nat) : Option Instr :=
  let word : Word := BitVec.ofNat 16 (w % 2 ^ nbits)
  match decodeBytes [highByte word, lowByte word] with
  | .ok (i, _) => some i
  | .error _   => none

end Sys2Proof
end

