-- ==== Sys2Proof/Config.lean ====
section
/-! DEFINITION. What is fixed for this hardware (00_scope R6 to R15) and what no source fixes: the random draws
(a free value) and the driver's cadence (00_scope R16; 92_eei_decisions D34, D37). The images, the key events and the
halt are arguments of the boundary operations (Machine/Boundary.lean). -/

namespace Sys2Proof.Config

/-- MEM_SIZE (00_scope R6). -/
def memSize : Nat := 4096

/-- The last address of memory (00_scope R6; 20_memory R50). -/
def lastAddr : Nat := 0xFFF

/-- STACK_DEPTH (00_scope R9). -/
def stackDepth : Nat := 16

/-- NKEYS (00_scope R11). -/
def numKeys : Nat := 16

/-- FB_WIDTH (00_scope R12). -/
def fbWidth : Nat := 64

/-- FB_HEIGHT (00_scope R12). -/
def fbHeight : Nat := 32

/-- FONT_BASE (00_scope R13). -/
def fontBase : Nat := 0x050

/-- GLYPH_SIZE (00_scope R13). -/
def glyphSize : Nat := 5

/-- FONT_MAX (00_scope R13). -/
def fontMax : Nat := 80

/-- PROG_BASE, also the reset value of `pc` (00_scope R14). -/
def progBase : Nat := 0x200

/-- PROG_MAX, the literal the source enforces (00_scope R14; 90_conflicts C2). -/
def progMax : Nat := 3583

/-- RND: the free random draw number `k`, one byte (00_scope R16; 40_cycle R99; 92_eei_decisions D19, D34). It has no
body: a statement holds for every sequence of draws. FREE VALUE, log 2. -/
opaque randomDraw : Nat → Byte

/-- DRIVER_CADENCE: cycles per second, informational only. No rule reads it, and nothing of the model does
(70_reset R249; 92_eei_decisions D37). -/
opaque driverCadence : Nat

end Sys2Proof.Config
end

