-- ==== Sys2Proof/Machine/State.lean ====
section
/-! DEFINITION. The machine state (10_state R20), the reasons a step can stop, and the state after construction
(10_state R39). State is plain data. -/

namespace Sys2Proof.Machine

/-- The seven causes of a machine fault (60_exceptions R210). -/
inductive FaultCause where
  | fetchBounds
  | stackOverflow
  | stackUnderflow
  | memoryBounds
  | fontDigitRange
  | keyIndexRange
  | indexOverflow
  deriving DecidableEq, Repr

/-- What a faulting cycle records (10_state R35): the cause, `pc` at the start of the cycle, and the fetched word, none
for a fetch fault. -/
structure FaultRecord where
  cause   : FaultCause
  faultPc : Word
  word    : Option Word
  deriving DecidableEq, Repr

/-- Memory: (address, byte) pairs in one canonical form (`Memory.wf`). An address not listed reads `unlistedByte`. -/
abbrev Memory := List Host.Cell

/-- What an unlisted address reads as: the contents of memory after construction (10_state R39: every byte 0). -/
def unlistedByte : Byte := 0#8

/-- The canonical form: addresses strictly rising, each at most 0xFFF (20_memory R50), and no byte listed that an
unlisted address reads as. -/
def Memory.wf (m : Memory) : Bool :=
  decide (m.Pairwise fun c d => c.1 < d.1) && m.all fun c => decide (c.1 < Config.memSize ∧ c.2 ≠ unlistedByte)

/-- The 32 rows of 64 one-bit cells, `fb[row][col]`, true = on (10_state R32; 44_display R170). -/
abbrev Framebuffer := Vector (Vector Bool 64) 32

/-- The machine state of 10_state R20. -/
structure State where
  /-- RAM, 0x000 to 0xFFF (20_memory R50). -/
  mem : Memory
  /-- V0 to VF (10_state R21). -/
  v : Vector Byte 16
  /-- The index register `I` (10_state R26). -/
  i : Word
  /-- The program counter (10_state R24). -/
  pc : Word
  /-- The call stack, 16 return addresses (10_state R27). -/
  stack : Vector Word 16
  /-- The stack pointer: slots in use, 0 to 16 (10_state R28). -/
  sp : BitVec 8
  /-- The delay timer DT (10_state R29). -/
  dt : Byte
  /-- The sound timer ST (10_state R30). -/
  st : Byte
  /-- The keypad lines, true = pressed (10_state R31). -/
  key : Vector Bool 16
  /-- The framebuffer (10_state R32). -/
  fb : Framebuffer
  /-- `must_draw` (10_state R33). -/
  mustDraw : Bool
  /-- `halted` (10_state R34). -/
  halted : Bool
  /-- `fault` (10_state R35). -/
  fault : Option FaultRecord
  /-- THE MODEL'S OWN: the number of the free random draw that the current cycle takes (00_scope R16; 40_cycle R99;
  log 2). -/
  drawIndex : Nat
  deriving DecidableEq, Repr

/-- Why a step has no successor. A machine fault is no such reason: it is a NEXT state (60_exceptions R211). -/
inductive Fault where
  /-- Raised by `step` alone, on a halted state: no transition leaves it (40_cycle R90). Safe: the spec gives the
  request no step. -/
  | noStepHalted
  /-- Raised by `step` alone, on a faulted state, with its record: no transition leaves it (40_cycle R90; 60_exceptions
  R211). Safe: the spec gives the request no step. -/
  | noStepFaulted (record : FaultRecord)
  deriving DecidableEq, Repr

/-- Why the model gives an instruction no meaning. -/
inductive Refusal where
  /-- Raised by `exec` for an instruction without a meaning; no arm raises it. Safe: the machine stops. -/
  | notModelled (mnemonic : String)
  deriving DecidableEq, Repr

/-- The state after construction (10_state R39; 70_reset R240): everything 0 and `pc` = 0x200. `drawIndex` is the
model's own (DESIGN CHOICE 0, log 2; no statement rests on it). -/
def State.reset : State where
  mem       := []
  v         := Vector.replicate 16 0#8
  i         := 0#16
  pc        := 0x200#16
  stack     := Vector.replicate 16 0#16
  sp        := 0#8
  dt        := 0#8
  st        := 0#8
  key       := Vector.replicate 16 false
  fb        := Vector.replicate 32 (Vector.replicate 64 false)
  mustDraw  := false
  halted    := false
  fault     := none
  drawIndex := 0

end Sys2Proof.Machine
end

