-- ==== Sys2Proof/Machine/Flags.lean ====
section
/-! DEFINITION. Every flag computation of the spec. A flag is a whole byte, 0 or 1, written to VF (10_state R22). -/

namespace Sys2Proof.Machine

/-- `c ? 1 : 0`, the value a flag-writing instruction puts into VF. -/
def flagByte (c : Bool) : Byte := if c then 1#8 else 0#8

/-- ADD Vx,Vy: carry out of bit 7, from the untruncated sum (42_alu R137; 90_conflicts C3). -/
def carryFlag (a b : Byte) : Byte := flagByte (decide (a.toNat + b.toNat > 255))

/-- SUB and SUBN: the strict comparison (42_alu R138, R140). -/
def greaterFlag (a b : Byte) : Byte := flagByte (decide (a.toNat > b.toNat))

/-- SHR: the bit shifted out, bit 0 (42_alu R139). -/
def shrFlag (a : Byte) : Byte := a &&& 1#8

/-- SHL: the bit shifted out, bit 7 (42_alu R141). -/
def shlFlag (a : Byte) : Byte := flagByte (decide (a &&& 0x80#8 ≠ 0#8))

end Sys2Proof.Machine
end

