-- ==== Sys2Proof/Machine/Ops.lean ====
section
/-! DEFINITION. The named operations over the state: memory, registers, stack, keypad lines and framebuffer cells, the
fetch, the parts every cycle has, and TAKING A MACHINE FAULT as one operation. There is no return from a fault beside
it: a fault has no handler, no vector and no return (60_exceptions R214). -/

namespace Sys2Proof.Machine

/-! Memory (20_memory). `MemRead` and `MemWrite` have the precondition `addr ≤ 0xFFF` (00_scope R18); every caller
checks it first (20_memory R55). -/

/-- `MemRead(addr, 1)` (00_scope R18): the listed byte, or the byte of an unlisted address. -/
def Memory.read : Memory → Nat → Byte
  | [], _ => unlistedByte
  | (a, b) :: m, addr => if a = addr then b else Memory.read m addr

/-- The listing without an address. -/
def Memory.drop (m : Memory) (addr : Nat) : Memory := m.filter fun c => c.1 != addr

/-- The listing with a byte put in at its place among the rising addresses. -/
def Memory.place : Memory → Nat → Byte → Memory
  | [], addr, b => [(addr, b)]
  | c :: m, addr, b => if addr < c.1 then (addr, b) :: c :: m else c :: Memory.place m addr b

/-- `MemWrite(addr, 1, v)` (00_scope R18), keeping the canonical form: a byte that an unlisted address reads as is not
listed. -/
def Memory.write (m : Memory) (addr : Nat) (b : Byte) : Memory :=
  if b = unlistedByte then m.drop addr else (m.drop addr).place addr b

/-- The bytes at `base`, `base + 1`, … in ascending order (20_memory R53). -/
def Memory.readBytes (m : Memory) (base : Nat) : Nat → List Byte
  | 0 => []
  | len + 1 => m.read base :: Memory.readBytes m (base + 1) len

/-- The bytes written at `base`, `base + 1`, … in ascending order (20_memory R53). -/
def Memory.writeBytes (m : Memory) (base : Nat) : List Byte → Memory
  | [] => m
  | b :: bs => Memory.writeBytes (m.write base b) (base + 1) bs

/-- Every address of the range is in memory: the check before any access (20_memory R55; 43_index_memory R150). An empty
range accesses nothing. -/
def rangeInMemory (base len : Nat) : Bool := decide (len = 0 ∨ base + (len - 1) ≤ Config.lastAddr)

/-! Registers (10_state R21): no register is hardwired, none is an alias. -/

/-- VF (10_state R22). -/
def vf : RegIdx := 15

/-- `V[x]` read (00_scope R18). -/
def State.reg (s : State) (x : RegIdx) : Byte := s.v[x.val]

/-- `V[x] <- b` (00_scope R18). -/
def State.setReg (s : State) (x : RegIdx) (b : Byte) : State := { s with v := s.v.set x.val b }

/-- `V[k], V[k+1], … <- bs` in ascending order (43_index_memory R156). -/
def State.setRegs (s : State) (k : Nat) : List Byte → State
  | [] => s
  | b :: bs => State.setRegs (s.setReg (Fin.ofNat 16 k) b) (k + 1) bs

/-! The call stack (10_state R27, R28). -/

/-- `stack[j]`. -/
def State.stackSlot (s : State) (j : Fin 16) : Word := s.stack[j.val]

/-! The keypad lines (10_state R31). -/

/-- `key[k]`. -/
def State.keyLine (s : State) (k : KeyIdx) : Bool := s.key[k.val]

/-- `key[k] <- b`. -/
def State.setKeyLine (s : State) (k : KeyIdx) (b : Bool) : State := { s with key := s.key.set k.val b }

/-- The lowest pressed line, if any: ascending, the first one wins (45_timers_keypad R197). -/
def State.lowestPressed (s : State) : Option KeyIdx := (List.finRange 16).find? s.keyLine

/-! The framebuffer (44_display R170). -/

/-- `fb[row][col]`. -/
def Framebuffer.cell (f : Framebuffer) (row : Fin 32) (col : Fin 64) : Bool := (f[row.val])[col.val]

/-- `fb[row][col] <- fb[row][col] ^ 1`. -/
def Framebuffer.toggle (f : Framebuffer) (row : Fin 32) (col : Fin 64) : Framebuffer :=
  f.set row.val ((f[row.val]).set col.val (!f.cell row col))

/-- Every cell off (44_display R171). -/
def Framebuffer.clear : Framebuffer := Vector.replicate 32 (Vector.replicate 64 false)

/-! The cycle's parts (40_cycle R97). -/

/-- The three run states (40_cycle R90). -/
inductive RunState where
  | running
  | halted
  | faulted (record : FaultRecord)
  deriving DecidableEq, Repr

/-- The run state; a machine that faulted and was halted afterwards counts as faulted (60_exceptions R213, R232; log
16). -/
def State.runState (s : State) : RunState :=
  match s.fault with
  | some f => .faulted f
  | none   => if s.halted then .halted else .running

/-- The fetch: none when the check `pc ≤ 0xFFE` fails (40_cycle R91), else the word at `pc`, high byte first
(40_cycle R92; 20_memory R52). -/
def State.fetch (s : State) : Option Word :=
  if s.pc.toNat + 1 > Config.lastAddr then none
  else some (wordOfBytes (s.mem.read s.pc.toNat) (s.mem.read (s.pc.toNat + 1)))

/-- `pc <- pc + 2`: the cycle's advance (40_cycle R93) and a skip (41_control_flow R110). After the fetch check the sum
never wraps (40_cycle R93; log 5). -/
def State.advance (s : State) : State := { s with pc := s.pc + 2#16 }

/-- One decrement, floored at 0 (40_cycle R96). -/
def decayTimer (b : Byte) : Byte := if b.toNat > 0 then narrow8 (b.toNat - 1) else 0#8

/-- The end of a cycle that did not fault: ST and then DT decay (40_cycle R96), and the next cycle takes the next random
draw (40_cycle R99). -/
def State.endCycle (t : State) : State :=
  { t with st := decayTimer t.st, dt := decayTimer t.dt, drawIndex := t.drawIndex + 1 }

/-- TAKING A MACHINE FAULT (60_exceptions R211; 40_cycle R95, R97): the state before the cycle in every field except
`fault`, which records the cause, `pc` at the start of the cycle and the fetched word. -/
def State.takeFault (s : State) (cause : FaultCause) (word : Option Word) : State :=
  { s with fault := some { cause := cause, faultPc := s.pc, word := word } }

/-- What a handler answers (40_cycle R97): the state it leaves, or the fault it raises. -/
inductive Handled where
  | ok (t : State)
  | raise (cause : FaultCause)
  deriving DecidableEq, Repr

/-- The cycle around a handler, after the fetch of `w` (40_cycle R93 to R97): advance, the handler, and the timer decay;
or the fault, which discards all of it. -/
def runHandler (w : Word) (handler : State → Handled) (s : State) : Host.Outcome State Fault Refusal :=
  match handler s.advance with
  | .ok t        => .next t.endCycle
  | .raise cause => .next (s.takeFault cause (some w))

/-- The cycle of a word that has no handler: a no-op that advances `pc` and decays the timers (30_encoding R75, R78;
40_cycle R94). -/
def execUnassigned (w : Word) (s : State) : Host.Outcome State Fault Refusal := runHandler w .ok s

/-- The number of a fault cause (60_exceptions R210). -/
def FaultCause.code : FaultCause → Nat
  | .fetchBounds    => 1
  | .stackOverflow  => 2
  | .stackUnderflow => 3
  | .memoryBounds   => 4
  | .fontDigitRange => 5
  | .keyIndexRange  => 6
  | .indexOverflow  => 7

end Sys2Proof.Machine
end

