-- ==== Sys2Proof/Machine/Operands.lean ====
section
/-! DEFINITION. Every operand form whose reading takes more than a register access: the memory block at `I`, the keypad
line a register names, the font digit, the skip, and the results the arithmetic narrows. -/

namespace Sys2Proof.Machine

/-- A memory block of `len` bytes at `I`: MemoryBounds when its last address is above 0xFFF, before anything is read or
written (20_memory R55; 43_index_memory R150). -/
def withBlock (t : State) (len : Nat) (effect : State) : Handled :=
  if rangeInMemory t.i.toNat len then .ok effect else .raise .memoryBounds

/-- The keypad line that `V[x]` names; none above 15 (45_timers_keypad R190). -/
def keyOperand (t : State) (x : RegIdx) : Option KeyIdx :=
  if h : (t.reg x).toNat < 16 then some ⟨(t.reg x).toNat, h⟩ else none

/-- An instruction on the keypad line that `V[x]` names: KeyIndexRange when it names none (45_timers_keypad R190). -/
def withKey (t : State) (x : RegIdx) (effect : KeyIdx → State) : Handled :=
  match keyOperand t x with
  | some k => .ok (effect k)
  | none   => .raise .keyIndexRange

/-- The skip: execution goes on at the instruction's address + 4 (41_control_flow R110). -/
def skipIf (c : Bool) (t : State) : State := if c then t.advance else t

/-- A flag written before the result, the result read from the registers the flag left (42_alu R143). -/
def flagThenResult (t : State) (flag : Byte) (x : RegIdx) (result : State → Byte) : State :=
  (t.setReg vf flag).setReg x (result (t.setReg vf flag))

/-- `(a + b) mod 256` (42_alu R130). -/
def addBytes (a b : Byte) : Byte := narrow8 (a.toNat + b.toNat)

/-- `(a - b) mod 256` (42_alu R130). -/
def subBytes (a b : Byte) : Byte := narrowInt8 ((a.toNat : Int) - (b.toNat : Int))

/-- `b >> 1` (42_alu R139). -/
def shrByte (b : Byte) : Byte := narrow8 (b.toNat / 2)

/-- `(b << 1) mod 256` (42_alu R141). -/
def shlByte (b : Byte) : Byte := narrow8 (b.toNat * 2)

/-- The three decimal digits of a byte, hundreds first (43_index_memory R154). -/
def bcdDigits (b : Byte) : List Byte :=
  [narrow8 (b.toNat / 100), narrow8 (b.toNat / 10 % 10), narrow8 (b.toNat % 10)]

/-- The address of the glyph of a digit: FONT_BASE + digit * GLYPH_SIZE (43_index_memory R153; 20_memory R57). -/
def glyphAddr (digit : Nat) : Nat := Config.fontBase + digit * Config.glyphSize

/-- V0 to Vx, the registers LD [I],Vx stores (43_index_memory R155). -/
def State.regsUpTo (t : State) (x : RegIdx) : List Byte := t.v.toList.take (x.val + 1)

end Sys2Proof.Machine
end

