-- ==== Sys2Proof/Machine/Alu.lean ====
section
/-! DEFINITION. 42_alu: loads of immediates, arithmetic, logic, shifts and the masked random byte. No handler here
raises a fault. Where a flag is written, the statement order of 42_alu R143 decides every case with VF as an operand or
the destination (log 8). -/

namespace Sys2Proof.Machine

/-- LD Vx,kk (42_alu R131). -/
def handleLdImm (x : RegIdx) (kk : Byte) (t : State) : Handled := .ok (t.setReg x kk)

/-- ADD Vx,kk (42_alu R132): no flag. -/
def handleAddImm (x : RegIdx) (kk : Byte) (t : State) : Handled := .ok (t.setReg x (addBytes (t.reg x) kk))

/-- LD Vx,Vy (42_alu R133). -/
def handleLdReg (x y : RegIdx) (t : State) : Handled := .ok (t.setReg x (t.reg y))

/-- OR Vx,Vy (42_alu R134): VF is not a flag here. -/
def handleOrReg (x y : RegIdx) (t : State) : Handled := .ok (t.setReg x (t.reg x ||| t.reg y))

/-- AND Vx,Vy (42_alu R135). -/
def handleAndReg (x y : RegIdx) (t : State) : Handled := .ok (t.setReg x (t.reg x &&& t.reg y))

/-- XOR Vx,Vy (42_alu R136). -/
def handleXorReg (x y : RegIdx) (t : State) : Handled := .ok (t.setReg x (t.reg x ^^^ t.reg y))

/-- ADD Vx,Vy (42_alu R137): the sum first, then the flag, then the result. -/
def handleAddReg (x y : RegIdx) (t : State) : Handled :=
  .ok (flagThenResult t (carryFlag (t.reg x) (t.reg y)) x fun _ => addBytes (t.reg x) (t.reg y))

/-- SUB Vx,Vy (42_alu R138): the flag first, the difference from the registers it left. -/
def handleSubReg (x y : RegIdx) (t : State) : Handled :=
  .ok (flagThenResult t (greaterFlag (t.reg x) (t.reg y)) x fun u => subBytes (u.reg x) (u.reg y))

/-- SHR Vx (42_alu R139). -/
def handleShr (x : RegIdx) (t : State) : Handled :=
  .ok (flagThenResult t (shrFlag (t.reg x)) x fun u => shrByte (u.reg x))

/-- SUBN Vx,Vy (42_alu R140). -/
def handleSubnReg (x y : RegIdx) (t : State) : Handled :=
  .ok (flagThenResult t (greaterFlag (t.reg y) (t.reg x)) x fun u => subBytes (u.reg y) (u.reg x))

/-- SHL Vx (42_alu R141). -/
def handleShl (x : RegIdx) (t : State) : Handled :=
  .ok (flagThenResult t (shlFlag (t.reg x)) x fun u => shlByte (u.reg x))

/-- RND Vx,kk (42_alu R142): the cycle's free draw under a mask (log 2). -/
def handleRnd (x : RegIdx) (kk : Byte) (t : State) : Handled :=
  .ok (t.setReg x (Config.randomDraw t.drawIndex &&& kk))

def execLdImm (x : RegIdx) (kk : Byte) (s : State) : Host.Outcome State Fault Refusal :=
  runHandler (encode (.ldImm x kk)) (handleLdImm x kk) s

def execAddImm (x : RegIdx) (kk : Byte) (s : State) : Host.Outcome State Fault Refusal :=
  runHandler (encode (.addImm x kk)) (handleAddImm x kk) s

def execLdReg (x y : RegIdx) (s : State) : Host.Outcome State Fault Refusal :=
  runHandler (encode (.ldReg x y)) (handleLdReg x y) s

def execOrReg (x y : RegIdx) (s : State) : Host.Outcome State Fault Refusal :=
  runHandler (encode (.orReg x y)) (handleOrReg x y) s

def execAndReg (x y : RegIdx) (s : State) : Host.Outcome State Fault Refusal :=
  runHandler (encode (.andReg x y)) (handleAndReg x y) s

def execXorReg (x y : RegIdx) (s : State) : Host.Outcome State Fault Refusal :=
  runHandler (encode (.xorReg x y)) (handleXorReg x y) s

def execAddReg (x y : RegIdx) (s : State) : Host.Outcome State Fault Refusal :=
  runHandler (encode (.addReg x y)) (handleAddReg x y) s

def execSubReg (x y : RegIdx) (s : State) : Host.Outcome State Fault Refusal :=
  runHandler (encode (.subReg x y)) (handleSubReg x y) s

def execShr (x : RegIdx) (ignored : Nibble) (s : State) : Host.Outcome State Fault Refusal :=
  runHandler (encode (.shr x ignored)) (handleShr x) s

def execSubnReg (x y : RegIdx) (s : State) : Host.Outcome State Fault Refusal :=
  runHandler (encode (.subnReg x y)) (handleSubnReg x y) s

def execShl (x : RegIdx) (ignored : Nibble) (s : State) : Host.Outcome State Fault Refusal :=
  runHandler (encode (.shl x ignored)) (handleShl x) s

def execRnd (x : RegIdx) (kk : Byte) (s : State) : Host.Outcome State Fault Refusal :=
  runHandler (encode (.rnd x kk)) (handleRnd x kk) s

end Sys2Proof.Machine
end

