-- ==== Sys2Proof/Machine/ControlFlow.lean ====
section
/-! DEFINITION. 41_control_flow: the call stack, the jumps and the skips. In a handler `pc` already holds the
instruction's address + 2 (40_cycle R93). -/

namespace Sys2Proof.Machine

/-- RET (41_control_flow R111): StackUnderflow when nothing is on the stack; the popped slot keeps its value. `sp` above
16 is no reachable value (10_state R28); the same fault there (log 4). -/
def handleRet (t : State) : Handled :=
  if h : 0 < t.sp.toNat ∧ t.sp.toNat ≤ 16 then
    .ok { t with sp := t.sp - 1#8, pc := t.stackSlot ⟨t.sp.toNat - 1, by omega⟩ }
  else .raise .stackUnderflow

/-- JP addr (41_control_flow R112). -/
def handleJp (nnn : Addr12) (t : State) : Handled := .ok { t with pc := nnn.setWidth 16 }

/-- CALL addr (41_control_flow R113): StackOverflow when all 16 slots are in use (log 4 for `sp` above 16). -/
def handleCall (nnn : Addr12) (t : State) : Handled :=
  if h : t.sp.toNat < 16 then
    .ok { t with stack := t.stack.set t.sp.toNat t.pc h, sp := t.sp + 1#8, pc := nnn.setWidth 16 }
  else .raise .stackOverflow

/-- SE Vx,kk (41_control_flow R114). -/
def handleSeImm (x : RegIdx) (kk : Byte) (t : State) : Handled := .ok (skipIf (t.reg x == kk) t)

/-- SNE Vx,kk (41_control_flow R115). -/
def handleSneImm (x : RegIdx) (kk : Byte) (t : State) : Handled := .ok (skipIf (t.reg x != kk) t)

/-- SE Vx,Vy (41_control_flow R116). -/
def handleSeReg (x y : RegIdx) (t : State) : Handled := .ok (skipIf (t.reg x == t.reg y) t)

/-- SNE Vx,Vy (41_control_flow R117). -/
def handleSneReg (x y : RegIdx) (t : State) : Handled := .ok (skipIf (t.reg x != t.reg y) t)

/-- JP V0,addr (41_control_flow R118): the sum at 16 bits, not reduced. -/
def handleJpV0 (nnn : Addr12) (t : State) : Handled :=
  .ok { t with pc := narrow16 ((t.reg 0).toNat + nnn.toNat) }

def execRet (s : State) : Host.Outcome State Fault Refusal := runHandler (encode .ret) handleRet s

def execJp (nnn : Addr12) (s : State) : Host.Outcome State Fault Refusal :=
  runHandler (encode (.jp nnn)) (handleJp nnn) s

def execCall (nnn : Addr12) (s : State) : Host.Outcome State Fault Refusal :=
  runHandler (encode (.call nnn)) (handleCall nnn) s

def execSeImm (x : RegIdx) (kk : Byte) (s : State) : Host.Outcome State Fault Refusal :=
  runHandler (encode (.seImm x kk)) (handleSeImm x kk) s

def execSneImm (x : RegIdx) (kk : Byte) (s : State) : Host.Outcome State Fault Refusal :=
  runHandler (encode (.sneImm x kk)) (handleSneImm x kk) s

def execSeReg (x y : RegIdx) (ignored : Nibble) (s : State) : Host.Outcome State Fault Refusal :=
  runHandler (encode (.seReg x y ignored)) (handleSeReg x y) s

def execSneReg (x y : RegIdx) (s : State) : Host.Outcome State Fault Refusal :=
  runHandler (encode (.sneReg x y)) (handleSneReg x y) s

def execJpV0 (nnn : Addr12) (s : State) : Host.Outcome State Fault Refusal :=
  runHandler (encode (.jpV0 nnn)) (handleJpV0 nnn) s

end Sys2Proof.Machine
end

