-- ==== Sys2Proof/Machine/Display.lean ====
section
/-! DEFINITION. 44_display: clearing the screen, and the XOR collision engine of DRW. -/

namespace Sys2Proof.Machine

/-- The framebuffer so far and whether a set sprite bit has met a cell that was on (44_display R172). -/
abbrev Canvas := Framebuffer × Bool

/-- One set sprite bit at (cx, cy): the collision is noted, the cell is toggled (44_display R172). -/
def drawPixel (cy : Fin 32) (cx : Fin 64) (c : Canvas) : Canvas := (c.1.toggle cy cx, c.2 || c.1.cell cy cx)

/-- One row of a sprite at row number `y` before wrapping. Bit 7 is the leftmost column (44_display R173; log 6), and
each pixel wraps (44_display R170, R172). -/
def drawRow (x0 y : Nat) (b : Byte) (c : Canvas) : Canvas :=
  (List.range 8).foldl
    (fun c col => if b.getLsbD (7 - col) then drawPixel (Fin.ofNat 32 y) (Fin.ofNat 64 (x0 + col)) c else c) c

/-- The rows of a sprite from row number `y` on (44_display R172). -/
def drawRows (x0 y : Nat) : List Byte → Canvas → Canvas
  | [], c => c
  | b :: bs, c => drawRows x0 (y + 1) bs (drawRow x0 y b c)

/-- CLS (44_display R171): neither VF nor `must_draw` is written (log 9). -/
def handleCls (t : State) : Handled := .ok { t with fb := Framebuffer.clear }

/-- The state DRW leaves (44_display R172): the origin is read before VF is written (log 12), VF is the collision flag
of the whole draw, and `must_draw` is set. -/
def drawSprite (x y : RegIdx) (n : Nibble) (t : State) : State :=
  let sprite := t.mem.readBytes t.i.toNat n.toNat
  let canvas := drawRows ((t.reg x).toNat % 64) ((t.reg y).toNat % 32) sprite (t.fb, false)
  { t.setReg vf (flagByte canvas.2) with fb := canvas.1, mustDraw := true }

/-- DRW Vx,Vy,n (44_display R172): MemoryBounds when n > 0 and the last sprite byte is above 0xFFF. -/
def handleDrw (x y : RegIdx) (n : Nibble) (t : State) : Handled := withBlock t n.toNat (drawSprite x y n t)

def execCls (s : State) : Host.Outcome State Fault Refusal := runHandler (encode .cls) handleCls s

def execDrw (x y : RegIdx) (n : Nibble) (s : State) : Host.Outcome State Fault Refusal :=
  runHandler (encode (.drw x y n)) (handleDrw x y n) s

end Sys2Proof.Machine
end

