-- ==== Sys2Proof/Machine/IndexMemory.lean ====
section
/-! DEFINITION. 43_index_memory: the index register and the memory-block instructions. Every address check comes before
any write (43_index_memory R150). -/

namespace Sys2Proof.Machine

/-- LD I,addr (43_index_memory R151). -/
def handleLdI (nnn : Addr12) (t : State) : Handled := .ok { t with i := nnn.setWidth 16 }

/-- ADD I,Vx (43_index_memory R152): IndexOverflow above 16 bits; VF is not written. -/
def handleAddI (x : RegIdx) (t : State) : Handled :=
  if t.i.toNat + (t.reg x).toNat > 0xFFFF then .raise .indexOverflow
  else .ok { t with i := narrow16 (t.i.toNat + (t.reg x).toNat) }

/-- LD F,Vx (43_index_memory R153): FontDigitRange above 15. -/
def handleLdF (x : RegIdx) (t : State) : Handled :=
  if (t.reg x).toNat > 15 then .raise .fontDigitRange
  else .ok { t with i := narrow16 (glyphAddr (t.reg x).toNat) }

/-- LD B,Vx (43_index_memory R154). -/
def handleLdB (x : RegIdx) (t : State) : Handled :=
  withBlock t 3 { t with mem := t.mem.writeBytes t.i.toNat (bcdDigits (t.reg x)) }

/-- LD [I],Vx (43_index_memory R155): V0 to Vx, `I` kept. -/
def handleLdMemVx (x : RegIdx) (t : State) : Handled :=
  withBlock t (x.val + 1) { t with mem := t.mem.writeBytes t.i.toNat (t.regsUpTo x) }

/-- LD Vx,[I] (43_index_memory R156): V0 to Vx, `I` kept. -/
def handleLdVxMem (x : RegIdx) (t : State) : Handled :=
  withBlock t (x.val + 1) (t.setRegs 0 (t.mem.readBytes t.i.toNat (x.val + 1)))

def execLdI (nnn : Addr12) (s : State) : Host.Outcome State Fault Refusal :=
  runHandler (encode (.ldI nnn)) (handleLdI nnn) s

def execAddI (x : RegIdx) (s : State) : Host.Outcome State Fault Refusal :=
  runHandler (encode (.addI x)) (handleAddI x) s

def execLdF (x : RegIdx) (s : State) : Host.Outcome State Fault Refusal :=
  runHandler (encode (.ldF x)) (handleLdF x) s

def execLdB (x : RegIdx) (s : State) : Host.Outcome State Fault Refusal :=
  runHandler (encode (.ldB x)) (handleLdB x) s

def execLdMemVx (x : RegIdx) (s : State) : Host.Outcome State Fault Refusal :=
  runHandler (encode (.ldMemVx x)) (handleLdMemVx x) s

def execLdVxMem (x : RegIdx) (s : State) : Host.Outcome State Fault Refusal :=
  runHandler (encode (.ldVxMem x)) (handleLdVxMem x) s

end Sys2Proof.Machine
end

