-- ==== Sys2Proof/Machine/TimersKeypad.lean ====
section
/-! DEFINITION. 45_timers_keypad: timer access and keypad polling. -/

namespace Sys2Proof.Machine

/-- LD Vx,DT (45_timers_keypad R191): DT before this cycle's decay. -/
def handleLdVxDt (x : RegIdx) (t : State) : Handled := .ok (t.setReg x t.dt)

/-- LD DT,Vx (45_timers_keypad R192): this cycle's decay follows. -/
def handleLdDtVx (x : RegIdx) (t : State) : Handled := .ok { t with dt := t.reg x }

/-- LD ST,Vx (45_timers_keypad R193): this cycle's decay follows. -/
def handleLdStVx (x : RegIdx) (t : State) : Handled := .ok { t with st := t.reg x }

/-- SKP Vx (45_timers_keypad R194): a pressed line is skipped on and cleared. -/
def handleSkp (x : RegIdx) (t : State) : Handled :=
  withKey t x fun k => if t.keyLine k then (t.advance).setKeyLine k false else t

/-- SKNP Vx (45_timers_keypad R195): a released line is skipped on, a pressed one is cleared without a skip. -/
def handleSknp (x : RegIdx) (t : State) : Handled :=
  withKey t x fun k => if t.keyLine k then t.setKeyLine k false else t.advance

/-- LD Vx,K (45_timers_keypad R197): the lowest pressed line's number, the line kept (log 10); with none pressed `pc`
steps back, so that the next cycle issues the instruction again. -/
def handleLdVxK (x : RegIdx) (t : State) : Handled :=
  match t.lowestPressed with
  | some k => .ok (t.setReg x (narrow8 k.val))
  | none   => .ok { t with pc := t.pc - 2#16 }

def execLdVxDt (x : RegIdx) (s : State) : Host.Outcome State Fault Refusal :=
  runHandler (encode (.ldVxDt x)) (handleLdVxDt x) s

def execLdDtVx (x : RegIdx) (s : State) : Host.Outcome State Fault Refusal :=
  runHandler (encode (.ldDtVx x)) (handleLdDtVx x) s

def execLdStVx (x : RegIdx) (s : State) : Host.Outcome State Fault Refusal :=
  runHandler (encode (.ldStVx x)) (handleLdStVx x) s

def execSkp (x : RegIdx) (s : State) : Host.Outcome State Fault Refusal :=
  runHandler (encode (.skp x)) (handleSkp x) s

def execSknp (x : RegIdx) (s : State) : Host.Outcome State Fault Refusal :=
  runHandler (encode (.sknp x)) (handleSknp x) s

def execLdVxK (x : RegIdx) (s : State) : Host.Outcome State Fault Refusal :=
  runHandler (encode (.ldVxK x)) (handleLdVxK x) s

end Sys2Proof.Machine
end

