-- ==== Sys2Proof/Machine/Step.lean ====
section
/-! DEFINITION. One cycle of the block (40_cycle R90 to R97), and the placing of a word where the next cycle fetches
it. -/

namespace Sys2Proof.Machine

/-- `Cycle(s, r)` (40_cycle R97) with the free draw `r` numbered `s.drawIndex` (log 2): no step when faulted or halted
(R90), FetchBounds when the fetch check fails (R91), a no-op cycle for an unassigned word (R94), else the instruction. -/
def step (s : State) : Host.Outcome State Fault Refusal :=
  match s.runState with
  | .faulted record => .fault (.noStepFaulted record)
  | .halted         => .fault .noStepHalted
  | .running =>
    match s.fetch with
    | none => .next (s.takeFault .fetchBounds none)
    | some w =>
      match decodeWord w with
      | none   => execUnassigned w s
      | some i => exec i s

/-- The word whose bits below `nbits` are those of `w` stored where the next step fetches: at `pc`, high byte first
(20_memory R52). A state that could not fetch there is made able to: `pc` at the entry point if the fetch check fails,
not halted and not faulted (log 13). -/
def State.withFetchWord (s : State) (nbits w : Nat) : State :=
  let word : Word := BitVec.ofNat 16 (w % 2 ^ nbits)
  let at_ : Word := if s.fetch.isSome then s.pc else narrow16 Config.progBase
  { s with
    mem    := s.mem.writeBytes at_.toNat [highByte word, lowByte word]
    pc     := at_
    halted := false
    fault  := none }

end Sys2Proof.Machine
end

