-- ==== Sys2Proof/Machine/Boundary.lean ====
section
/-! DEFINITION. The transaction-level interface of the block (60_exceptions R223 to R232; 70_reset_and_hazards R240 to
R242): construction, the two loads, cycles, key events, the drawing handshake and the halt, each atomic and between
cycles, and what the host may read. `Block` holds beside the machine what R223 and R231 make the order of operations
depend on; it is the model's own (log 14), not machine state (10_state R20). -/

namespace Sys2Proof.Machine

/-- Why a load fails (70_reset_and_hazards R241; 60_exceptions R216). -/
inductive LoadError where
  | fontTooLarge
  | programTooLarge
  deriving DecidableEq, Repr

/-- `load_font(F)`: at most 80 bytes, copied to 0x050 (70_reset_and_hazards R241). -/
def State.loadFont (s : State) (font : List Byte) : Except LoadError State :=
  if font.length > Config.fontMax then .error .fontTooLarge
  else .ok { s with mem := s.mem.writeBytes Config.fontBase font }

/-- `load_program(P)`: at most 3583 bytes, copied to 0x200 (70_reset_and_hazards R241; 90_conflicts C2). -/
def State.loadProgram (s : State) (program : List Byte) : Except LoadError State :=
  if program.length > Config.progMax then .error .programTooLarge
  else .ok { s with mem := s.mem.writeBytes Config.progBase program }

/-- The launch state: construct, load the font, load the program (70_reset_and_hazards R241, R242). -/
def launch (font program : List Byte) : Except LoadError State := do
  (← State.reset.loadFont font).loadProgram program

/-- `key(k, pressed)` (60_exceptions R225). -/
def State.keyEvent (s : State) (k : KeyIdx) (pressed : Bool) : State := s.setKeyLine k pressed

/-- `ack_draw` (60_exceptions R226; 92_eei_decisions D29). -/
def State.ackDraw (s : State) : State := { s with mustDraw := false }

/-- `halt` (40_cycle R104; 60_exceptions R228). -/
def State.halt (s : State) : State := { s with halted := true }

/-- `sound_active` (60_exceptions R227). -/
def State.soundActive (s : State) : Bool := s.st != 0#8

/-- `snapshot`: what the host may read between cycles is the whole record of 10_state R20 (10_state R40; 60_exceptions
R229), and reading changes nothing. -/
def State.snapshot (s : State) : State := s

/-- The host's operations that act on the block (60_exceptions R223). -/
inductive BoundaryOp where
  | loadFont (bytes : List Byte)
  | loadProgram (bytes : List Byte)
  | cycle
  | key (k : KeyIdx) (pressed : Bool)
  | ackDraw
  | halt
  deriving DecidableEq, Repr

/-- The machine and what the allowed-when column of 60_exceptions R223 looks at. -/
structure Block where
  machine       : State
  /-- A font load has succeeded. -/
  fontLoaded    : Bool
  /-- A program load has succeeded. -/
  programLoaded : Bool
  /-- The first cycle has happened. -/
  cycled        : Bool
  /-- A load has failed: the machine runs no cycle (60_exceptions R216). -/
  loadFailed    : Option LoadError
  deriving DecidableEq, Repr

/-- `construct` (60_exceptions R223; 70_reset_and_hazards R240). -/
def Block.construct : Block :=
  { machine := State.reset, fontLoaded := false, programLoaded := false, cycled := false, loadFailed := none }

/-- A load's answer put back into the block: the block with the loaded machine, or the error noted, the machine as it
was (70_reset_and_hazards R241; 60_exceptions R216). -/
def Block.afterLoad (b : Block) (loaded : State → Block) : Except LoadError State → Block
  | .ok s    => loaded s
  | .error e => { b with loadFailed := some e }

/-- One operation of the host; none for an operation the host must not perform: it has no step (60_exceptions R216,
R223, R224, R231). DESIGN CHOICE (log 14), where the spec says only "between cycles": a key event and `ack_draw` change
`key` and `must_draw` on a halted machine too (beside 60_exceptions R230), on a faulted one, before the loads and after
a failed load, and a load is carried out on a machine halted before its first cycle or after a failed load. -/
def Block.perform (b : Block) : BoundaryOp → Option Block
  | .loadFont bytes =>
    if b.cycled then none
    else some (b.afterLoad (fun s => { b with machine := s, fontLoaded := true }) (b.machine.loadFont bytes))
  | .loadProgram bytes =>
    if b.cycled then none
    else some (b.afterLoad (fun s => { b with machine := s, programLoaded := true }) (b.machine.loadProgram bytes))
  | .cycle =>
    if b.fontLoaded && b.programLoaded && b.loadFailed.isNone then
      match step b.machine with
      | .next s => some { b with machine := s, cycled := true }
      | _       => none
    else none
  | .key k pressed => some { b with machine := b.machine.keyEvent k pressed }
  | .ackDraw       => some { b with machine := b.machine.ackDraw }
  | .halt          => some { b with machine := b.machine.halt }

/-- The operations one after the other, in the order they arrive (60_exceptions R225; 20_memory R60); none when one of
them has no step. -/
def Block.performAll : List BoundaryOp → Block → Option Block
  | [], b => some b
  | op :: ops, b => (b.perform op).bind (Block.performAll ops)

/-- What is pending at a cycle boundary: a halt goes before a requested cycle, which then has no step (40_cycle R105;
60_exceptions R213). -/
def Block.boundary (b : Block) (haltPending cycleRequested : Bool) : Option Block :=
  if haltPending then b.perform .halt
  else if cycleRequested then b.perform .cycle
  else some b

end Sys2Proof.Machine
end

