-- ==== Sys2Proof/Safety.lean ====
section
/-! DEFINITION. What the statements are said in: the invariant of the reachable states, the ends of a run, and the
frame of an instruction (what it leaves as it was, but for the parts every cycle changes). -/

namespace Sys2Proof.Machine

/-- A fault record tells the truth about the state it stands in (10_state R35; 60_exceptions R210, R211): `pc` is still
that of the faulting cycle, and the word is missing exactly for a fetch fault, which needs `pc` above 0xFFE. -/
def FaultRecord.TrueOf (r : FaultRecord) (s : State) : Prop :=
  r.faultPc = s.pc ∧ (r.word = none ↔ r.cause = .fetchBounds) ∧ (r.cause = .fetchBounds ↔ 0xFFE < s.pc.toNat)

/-- The invariant: memory is canonical, `sp` is 0 to 16 (10_state R28), `pc` is at most 0x10FE and every return address
at most 0x1000 (10_state R25), and a fault record is true of the state. -/
structure State.Inv (s : State) : Prop where
  memory : s.mem.wf = true
  depth  : s.sp.toNat ≤ 16
  target : s.pc.toNat ≤ 0x10FE
  slots  : ∀ j, (s.stackSlot j).toNat ≤ 0x1000
  record : ∀ r, s.fault = some r → r.TrueOf s

/-- A run ends well: the host halted it and it never faulted (60_exceptions R232). -/
def State.EndedByHalt (s : State) : Prop := s.halted = true ∧ s.fault = none

/-- A run ended in an error: it faulted (60_exceptions R232). -/
def State.EndedByFault (s : State) : Prop := s.fault ≠ none

/-- Safe: no machine fault has happened. -/
def State.Safe (s : State) : Prop := s.fault = none

/-- The parts of the state an instruction's rule speaks of one by one (10_state R20), but for the registers and `pc`. -/
inductive Part where
  | memory | index | stackSlots | stackPointer | delayTimer | soundTimer | keypad | framebuffer | mustDraw | halted
  | fault
  deriving DecidableEq, Repr

/-- A part an instruction leaves alone, from the state before its cycle to the state after it: every byte of memory
reads as before, every register-like part is as before, and a timer has only had its decrement, floored at 0
(40_cycle R96). -/
def Part.LeftAlone (s t : State) : Part → Prop
  | .memory       => ∀ a, t.mem.read a = s.mem.read a
  | .index        => t.i = s.i
  | .stackSlots   => ∀ j, t.stackSlot j = s.stackSlot j
  | .stackPointer => t.sp = s.sp
  | .delayTimer   => t.dt.toNat = s.dt.toNat - 1
  | .soundTimer   => t.st.toNat = s.st.toNat - 1
  | .keypad       => ∀ k, t.keyLine k = s.keyLine k
  | .framebuffer  => ∀ row col, t.fb.cell row col = s.fb.cell row col
  | .mustDraw     => t.mustDraw = s.mustDraw
  | .halted       => t.halted = s.halted
  | .fault        => t.fault = s.fault

/-- Every part but the named ones is left alone. -/
def LeavesAllBut (changed : List Part) (s t : State) : Prop := ∀ p, p ∉ changed → p.LeftAlone s t

/-- Every general register but the named ones is as before. -/
def RegsKeptBut (written : RegIdx → Prop) (s t : State) : Prop := ∀ j, ¬ written j → t.reg j = s.reg j

/-- The "writes" column of 10_state R23: the general registers an instruction may write. -/
def MayWriteReg (j : RegIdx) : Instr → Prop
  | .ldImm x _ | .addImm x _ | .ldReg x _ | .orReg x _ | .andReg x _ | .xorReg x _ | .rnd x _ | .ldVxDt x | .ldVxK x =>
    j = x
  | .addReg x _ | .subReg x _ | .subnReg x _ | .shr x _ | .shl x _ => j = 15 ∨ j = x
  | .drw _ _ _ => j = 15
  | .ldVxMem x => j ≤ x
  | .cls | .ret | .jp _ | .call _ | .seImm _ _ | .sneImm _ _ | .seReg _ _ _ | .sneReg _ _ | .ldI _ | .jpV0 _ | .skp _
  | .sknp _ | .ldDtVx _ | .ldStVx _ | .addI _ | .ldF _ | .ldB _ | .ldMemVx _ => False

/-- The instructions that write `pc` beside the cycle's own advance (10_state R24). -/
def MayWritePc : Instr → Prop
  | .ret | .jp _ | .call _ | .seImm _ _ | .sneImm _ _ | .seReg _ _ _ | .sneReg _ _ | .jpV0 _ | .skp _ | .sknp _ | .ldVxK _ =>
    True
  | .cls | .ldImm _ _ | .addImm _ _ | .ldReg _ _ | .orReg _ _ | .andReg _ _ | .xorReg _ _ | .addReg _ _ | .subReg _ _
  | .shr _ _ | .subnReg _ _ | .shl _ _ | .ldI _ | .rnd _ _ | .drw _ _ _ | .ldVxDt _ | .ldDtVx _ | .ldStVx _ | .addI _
  | .ldF _ | .ldB _ | .ldMemVx _ | .ldVxMem _ => False

/-- The instructions in the "raised by" column of 60_exceptions R210. -/
def MayFault : Instr → Prop
  | .ret | .call _ | .drw _ _ _ | .skp _ | .sknp _ | .addI _ | .ldF _ | .ldB _ | .ldMemVx _ | .ldVxMem _ => True
  | .cls | .jp _ | .seImm _ _ | .sneImm _ _ | .seReg _ _ _ | .sneReg _ _ | .ldImm _ _ | .addImm _ _ | .ldReg _ _
  | .orReg _ _ | .andReg _ _ | .xorReg _ _ | .addReg _ _ | .subReg _ _ | .shr _ _ | .subnReg _ _ | .shl _ _ | .ldI _
  | .jpV0 _ | .rnd _ _ | .ldVxDt _ | .ldDtVx _ | .ldStVx _ | .ldVxK _ => False

/-- The byte an address holds once bytes have been stored at `base` and up (20_memory R53, R64). -/
def byteOver (m : Memory) (base : Nat) (bs : List Byte) (addr : Nat) : Byte :=
  if h : base ≤ addr ∧ addr - base < bs.length then bs[addr - base] else m.read addr

/-- The instruction raises a fault: its cycle answers the state before it, with the record in `fault` and nothing else
changed (60_exceptions R211). -/
def Faults (i : Instr) (s : State) (cause : FaultCause) : Prop :=
  exec i s = .next { s with fault := some { cause := cause, faultPc := s.pc, word := some (encode i) } }

/-- DRW Vx,Vy,n from `s` has a set sprite bit on the cell: some sprite row `r` and column `c` wrap to it, and bit
`7 - c` of the row's byte is 1 (44_display R172, R173). -/
def SpriteSets (s : State) (x y : RegIdx) (n : Nibble) (row : Fin 32) (col : Fin 64) : Prop :=
  ∃ r c : Nat, r < n.toNat ∧ c < 8 ∧ (s.mem.read (s.i.toNat + r)).getLsbD (7 - c) = true ∧
    row.val = ((s.reg y).toNat % 32 + r) % 32 ∧ col.val = ((s.reg x).toNat % 64 + c) % 64

/-- The set bits of the sprite of DRW Vx,Vy,n, as (row, column) within the sprite (44_display R173, R174). -/
def spriteBits (s : State) (n : Nibble) : Finset (Nat × Nat) :=
  (Finset.range n.toNat ×ˢ Finset.range 8).filter fun b => (s.mem.read (s.i.toNat + b.1)).getLsbD (7 - b.2) = true

/-- Those set bits that land on a cell that is on (44_display R174). -/
def spriteHits (s : State) (x y : RegIdx) (n : Nibble) : Finset (Nat × Nat) :=
  (spriteBits s n).filter fun b =>
    s.fb.cell (Fin.ofNat 32 ((s.reg y).toNat % 32 + b.1)) (Fin.ofNat 64 ((s.reg x).toNat % 64 + b.2)) = true

/-- The cells that are on (44_display R174). -/
def Framebuffer.onCells (f : Framebuffer) : Finset (Fin 32 × Fin 64) :=
  Finset.univ.filter fun c => f.cell c.1 c.2 = true

/-- The memory block of `len` bytes at `I` lies in memory; an empty block always does (20_memory R55). -/
def BlockInMemory (s : State) (len : Nat) : Prop := len = 0 ∨ s.i.toNat + (len - 1) ≤ 0xFFF

end Sys2Proof.Machine
end

