-- ==== Sys2Proof/WellFormed.lean ====
section
/-! DEFINITION. Well-formedness. An `Instr` is well formed by its types: each field has the width of 30_encoding R71.
What can be ill formed is what an assembler reads (30_encoding R80, R81): a number that does not fit its field, or an
operand shape no row has. `AsmLine.toInstr` picks the row from the shapes, and `AsmLine.wellFormed` says that the line
names an instruction. -/

namespace Sys2Proof

/-- A register number below 16 (10_state R21). -/
def asmReg (n : Nat) : Option RegIdx := if h : n < 16 then some ⟨n, h⟩ else none

/-- A literal that fits `width` bits (30_encoding R73: no field is scaled or sign-extended). -/
def asmBits (width n : Nat) : Option (BitVec width) := if n < 2 ^ width then some (BitVec.ofNat width n) else none

/-- An operand's number fits its field (30_encoding R73, R80). -/
def AsmOperand.inRange : AsmOperand → Bool
  | .reg n    => decide (n < 16)
  | .byte n   => decide (n < 256)
  | .addr n   => decide (n < 4096)
  | .nibble n => decide (n < 16)
  | _         => true

/-- The row of 30_encoding R76 that a mnemonic and its operand shapes pick (30_encoding R81); none for a shape that no
row has or a number that does not fit. A field the decoder ignores is written as 0, as its pattern spells it. -/
def AsmLine.toInstr (l : AsmLine) : Option Instr :=
  match l.name, l.operands with
  | .cls,  []                              => some .cls
  | .ret,  []                              => some .ret
  | .jp,   [.addr a]                       => (asmBits 12 a).map .jp
  | .jp,   [.reg 0, .addr a]               => (asmBits 12 a).map .jpV0
  | .call, [.addr a]                       => (asmBits 12 a).map .call
  | .se,   [.reg x, .byte k]               => do return .seImm (← asmReg x) (← asmBits 8 k)
  | .se,   [.reg x, .reg y]                => do return .seReg (← asmReg x) (← asmReg y) 0
  | .sne,  [.reg x, .byte k]               => do return .sneImm (← asmReg x) (← asmBits 8 k)
  | .sne,  [.reg x, .reg y]                => do return .sneReg (← asmReg x) (← asmReg y)
  | .ld,   [.reg x, .byte k]               => do return .ldImm (← asmReg x) (← asmBits 8 k)
  | .ld,   [.reg x, .reg y]                => do return .ldReg (← asmReg x) (← asmReg y)
  | .ld,   [.index, .addr a]               => (asmBits 12 a).map .ldI
  | .ld,   [.reg x, .delayTimer]           => (asmReg x).map .ldVxDt
  | .ld,   [.reg x, .waitKey]              => (asmReg x).map .ldVxK
  | .ld,   [.delayTimer, .reg x]           => (asmReg x).map .ldDtVx
  | .ld,   [.soundTimer, .reg x]           => (asmReg x).map .ldStVx
  | .ld,   [.fontGlyph, .reg x]            => (asmReg x).map .ldF
  | .ld,   [.bcd, .reg x]                  => (asmReg x).map .ldB
  | .ld,   [.memAtIndex, .reg x]           => (asmReg x).map .ldMemVx
  | .ld,   [.reg x, .memAtIndex]           => (asmReg x).map .ldVxMem
  | .add,  [.reg x, .byte k]               => do return .addImm (← asmReg x) (← asmBits 8 k)
  | .add,  [.reg x, .reg y]                => do return .addReg (← asmReg x) (← asmReg y)
  | .add,  [.index, .reg x]                => (asmReg x).map .addI
  | .or,   [.reg x, .reg y]                => do return .orReg (← asmReg x) (← asmReg y)
  | .and,  [.reg x, .reg y]                => do return .andReg (← asmReg x) (← asmReg y)
  | .xor,  [.reg x, .reg y]                => do return .xorReg (← asmReg x) (← asmReg y)
  | .sub,  [.reg x, .reg y]                => do return .subReg (← asmReg x) (← asmReg y)
  | .subn, [.reg x, .reg y]                => do return .subnReg (← asmReg x) (← asmReg y)
  | .shr,  [.reg x]                        => (asmReg x).map (.shr · 0)
  | .shl,  [.reg x]                        => (asmReg x).map (.shl · 0)
  | .rnd,  [.reg x, .byte k]               => do return .rnd (← asmReg x) (← asmBits 8 k)
  | .drw,  [.reg x, .reg y, .nibble n]     => do return .drw (← asmReg x) (← asmReg y) (← asmBits 4 n)
  | .skp,  [.reg x]                        => (asmReg x).map .skp
  | .sknp, [.reg x]                        => (asmReg x).map .sknp
  | _, _                                   => none

/-- The line names an instruction of the table: its operands fit and its shape is a row's (30_encoding R80, R81). -/
def AsmLine.wellFormed (l : AsmLine) : Bool := l.operands.all AsmOperand.inRange && l.toInstr.isSome

/-- The line an instruction is written as (30_encoding R76, R80); an ignored field has no place in it. -/
def Instr.toAsm : Instr → AsmLine
  | .cls           => ⟨.cls, []⟩
  | .ret           => ⟨.ret, []⟩
  | .jp a          => ⟨.jp, [.addr a.toNat]⟩
  | .call a        => ⟨.call, [.addr a.toNat]⟩
  | .seImm x k     => ⟨.se, [.reg x, .byte k.toNat]⟩
  | .sneImm x k    => ⟨.sne, [.reg x, .byte k.toNat]⟩
  | .seReg x y _   => ⟨.se, [.reg x, .reg y]⟩
  | .sneReg x y    => ⟨.sne, [.reg x, .reg y]⟩
  | .ldImm x k     => ⟨.ld, [.reg x, .byte k.toNat]⟩
  | .addImm x k    => ⟨.add, [.reg x, .byte k.toNat]⟩
  | .ldReg x y     => ⟨.ld, [.reg x, .reg y]⟩
  | .orReg x y     => ⟨.or, [.reg x, .reg y]⟩
  | .andReg x y    => ⟨.and, [.reg x, .reg y]⟩
  | .xorReg x y    => ⟨.xor, [.reg x, .reg y]⟩
  | .addReg x y    => ⟨.add, [.reg x, .reg y]⟩
  | .subReg x y    => ⟨.sub, [.reg x, .reg y]⟩
  | .shr x _       => ⟨.shr, [.reg x]⟩
  | .subnReg x y   => ⟨.subn, [.reg x, .reg y]⟩
  | .shl x _       => ⟨.shl, [.reg x]⟩
  | .ldI a         => ⟨.ld, [.index, .addr a.toNat]⟩
  | .jpV0 a        => ⟨.jp, [.reg 0, .addr a.toNat]⟩
  | .rnd x k       => ⟨.rnd, [.reg x, .byte k.toNat]⟩
  | .drw x y n     => ⟨.drw, [.reg x, .reg y, .nibble n.toNat]⟩
  | .skp x         => ⟨.skp, [.reg x]⟩
  | .sknp x        => ⟨.sknp, [.reg x]⟩
  | .ldVxDt x      => ⟨.ld, [.reg x, .delayTimer]⟩
  | .ldDtVx x      => ⟨.ld, [.delayTimer, .reg x]⟩
  | .ldStVx x      => ⟨.ld, [.soundTimer, .reg x]⟩
  | .addI x        => ⟨.add, [.index, .reg x]⟩
  | .ldF x         => ⟨.ld, [.fontGlyph, .reg x]⟩
  | .ldB x         => ⟨.ld, [.bcd, .reg x]⟩
  | .ldMemVx x     => ⟨.ld, [.memAtIndex, .reg x]⟩
  | .ldVxMem x     => ⟨.ld, [.reg x, .memAtIndex]⟩
  | .ldVxK x       => ⟨.ld, [.reg x, .waitKey]⟩

/-- The instruction with its ignored field, if it has one, as its pattern spells it: 0 (30_encoding R76, R77). -/
def Instr.plain : Instr → Instr
  | .seReg x y _ => .seReg x y 0
  | .shr x _     => .shr x 0
  | .shl x _     => .shl x 0
  | i            => i

end Sys2Proof
end

