-- ==== Sys2Proof/Certificates/Slice0/Obligations.lean ====
section
/-! DEFINITION. The statements for the provers, each a `Prop` that formalises rules of spec/. A statement whose rule the
spec marks as its own decision ("decision: see 92_eei_decisions", the spec's OUR CHOICE) or as derived says so in its
docstring and has the basis 'derived'. -/

open Sys2Proof Sys2Proof.Machine

/-! Encoding (30_encoding). -/

/-- Decoding what the encoder writes gives the instruction back, for every instruction and every operand value; from
bytes, the bytes after it are left. 30_encoding R70, R71, R76; the ids of R76 but for CLS and RET are general knowledge
the spec supplies (G1, D9; log 1). -/
def Obligations.DecodeOfEncodeReturnsInstruction : Prop :=
  ∀ i : Instr, decodeWord (encode i) = some i ∧
    ∀ rest, decodeBytes (encodeBytes i ++ rest) = .ok (i, rest)

/-- Encoding what the decoder reads gives the word back: no bit of an assigned word is dropped, not even an ignored
one. 30_encoding R76, R77 (spec's decisions D9, D10; log 1, log 7). -/
def Obligations.EncodeOfDecodeReturnsWord : Prop :=
  ∀ (w : Word) (i : Instr), decodeWord w = some i → encode i = w

/-- The words without an instruction are exactly those of the table of 30_encoding R78 (derived there from R74 and R76;
the ids of R76 but for CLS and RET: log 1). -/
def Obligations.UnassignedWordsAreThoseListed : Prop :=
  ∀ w : Word, decodeWord w = none ↔
    (fieldT w = 0x0#4 ∧ w ≠ 0x00E0#16 ∧ w ≠ 0x00EE#16) ∨
    (fieldT w = 0x8#4 ∧ fieldN w ∈ [0x8#4, 0x9#4, 0xA#4, 0xB#4, 0xC#4, 0xD#4, 0xF#4]) ∨
    (fieldT w = 0x9#4 ∧ fieldN w ≠ 0x0#4) ∨
    (fieldT w = 0xE#4 ∧ fieldKK w ∉ [0x9E#8, 0xA1#8]) ∨
    (fieldT w = 0xF#4 ∧
      fieldKK w ∉ [0x07#8, 0x0A#8, 0x15#8, 0x18#8, 0x1E#8, 0x29#8, 0x33#8, 0x55#8, 0x65#8])

/-- The dispatch key by top nibble. Formalises 30_encoding R74. -/
def Obligations.DispatchKeyMasksByTopNibble : Prop :=
  ∀ w : Word,
    (w.toNat / 0x1000 = 0 → dispatchId w = w) ∧
    (w.toNat / 0x1000 = 0x8 ∨ w.toNat / 0x1000 = 0x9 → dispatchId w = w &&& 0xF00F#16) ∧
    (w.toNat / 0x1000 = 0xE ∨ w.toNat / 0x1000 = 0xF → dispatchId w = w &&& 0xF0FF#16) ∧
    (w.toNat / 0x1000 ∈ [0x1, 0x2, 0x3, 0x4, 0x5, 0x6, 0x7, 0xA, 0xB, 0xC, 0xD] → dispatchId w = w &&& 0xF000#16)

/-- The field views are the masks and shifts of 30_encoding R72. -/
def Obligations.FieldViewsAreMasksAndShifts : Prop :=
  ∀ w : Word,
    (fieldNNN w).setWidth 16 = w &&& 0x0FFF#16 ∧
    (fieldKK w).setWidth 16 = w &&& 0x00FF#16 ∧
    (fieldN w).setWidth 16 = w &&& 0x000F#16 ∧
    BitVec.ofNat 16 (fieldX w).val = (w &&& 0x0F00#16) >>> 8 ∧
    BitVec.ofNat 16 (fieldY w).val = (w &&& 0x00F0#16) >>> 4

/-- Words written out from the patterns of 30_encoding R76 decode to the instructions they stand for: one of every top
nibble, and two words that stand for none (E1 and the decoder table of 95_test_vectors). Every pattern but those of CLS
and RET is general knowledge the spec supplies (PRESUMED, log 1; spec's decision D9). -/
def Obligations.WordsOfTheSpecDecode : Prop :=
  decodeWord 0x00E0#16 = some .cls ∧ decodeWord 0x00EE#16 = some .ret ∧
  decodeWord 0x1AAA#16 = some (.jp 0xAAA#12) ∧ decodeWord 0x2210#16 = some (.call 0x210#12) ∧
  decodeWord 0x3A22#16 = some (.seImm 0xA 0x22#8) ∧ decodeWord 0x4322#16 = some (.sneImm 0x3 0x22#8) ∧
  decodeWord 0x5120#16 = some (.seReg 0x1 0x2 0x0#4) ∧ decodeWord 0x6922#16 = some (.ldImm 0x9 0x22#8) ∧
  decodeWord 0x7103#16 = some (.addImm 0x1 0x03#8) ∧ decodeWord 0x82B0#16 = some (.ldReg 0x2 0xB) ∧
  decodeWord 0x8235#16 = some (.subReg 0x2 0x3) ∧ decodeWord 0x9AB0#16 = some (.sneReg 0xA 0xB) ∧
  decodeWord 0xA300#16 = some (.ldI 0x300#12) ∧ decodeWord 0xBAAA#16 = some (.jpV0 0xAAA#12) ∧
  decodeWord 0xC30F#16 = some (.rnd 0x3 0x0F#8) ∧ decodeWord 0xDAFD#16 = some (.drw 0xA 0xF 0xD#4) ∧
  decodeWord 0xE59E#16 = some (.skp 0x5) ∧ decodeWord 0xF265#16 = some (.ldVxMem 0x2) ∧
  decodeWord 0xFA0A#16 = some (.ldVxK 0xA) ∧ decodeWord 0x0123#16 = none ∧ decodeWord 0x8AB8#16 = none

/-- The assembler picks back the row of every instruction from its mnemonic and operand shapes, and the line is well
formed; an ignored field, which no line writes, comes back as 0. 30_encoding R80, R81; the form of the lines is the
model's own (log 15). -/
def Obligations.AssemblerPicksTheRow : Prop :=
  ∀ i : Instr, i.toAsm.toInstr = some i.plain ∧ i.toAsm.wellFormed = true

/-! Construction, the cycle and the run states (10_state, 40_cycle, 60_exceptions). -/

/-- Every field after construction (10_state R39; the row `fault` is the spec's decision D1). The model's own
`drawIndex` is not spoken of. -/
def Obligations.ConstructionZeroesAllButPc : Prop :=
  (∀ a, State.reset.mem.read a = 0#8) ∧ (∀ j, State.reset.reg j = 0#8) ∧ State.reset.i = 0#16 ∧
  State.reset.pc = 0x200#16 ∧ (∀ j, State.reset.stackSlot j = 0#16) ∧ State.reset.sp = 0#8 ∧
  State.reset.dt = 0#8 ∧ State.reset.st = 0#8 ∧ (∀ k, State.reset.keyLine k = false) ∧
  (∀ row col, State.reset.fb.cell row col = false) ∧ State.reset.mustDraw = false ∧
  State.reset.halted = false ∧ State.reset.fault = none

/-- A step of a running machine fetches the word at `pc`, high byte first, and is `exec` of the instruction the word
decodes to, with nothing added around it. Formalises 40_cycle R92. -/
def Obligations.StepRunsTheDecodedInstruction : Prop :=
  ∀ (s : State) (w : Word) (i : Instr), s.halted = false → s.fault = none → s.pc.toNat ≤ 0xFFE →
    w.toNat = (s.mem.read s.pc.toNat).toNat * 256 + (s.mem.read (s.pc.toNat + 1)).toNat →
    decodeWord w = some i → step s = exec i s

/-- A word without an instruction is a no-op: `pc` advances by 2, the timers decay and nothing else changes.
30_encoding R75 and R78 (R78 is derived, and which words are no instruction rests on log 1). -/
def Obligations.UnassignedWordIsNoOp : Prop :=
  ∀ (s : State) (w : Word), s.halted = false → s.fault = none → s.pc.toNat ≤ 0xFFE →
    w.toNat = (s.mem.read s.pc.toNat).toNat * 256 + (s.mem.read (s.pc.toNat + 1)).toNat →
    decodeWord w = none →
    ∃ t, step s = .next t ∧ t.pc.toNat = s.pc.toNat + 2 ∧ RegsKeptBut (fun _ => False) s t ∧ LeavesAllBut [] s t

/-- A fetch whose two bytes are not both in memory raises FetchBounds with no word, and nothing else happens. 40_cycle
R91 (spec's decision D4). -/
def Obligations.FetchBeyondMemoryFaults : Prop :=
  ∀ s : State, s.halted = false → s.fault = none → 0xFFE < s.pc.toNat →
    step s = .next { s with fault := some { cause := .fetchBounds, faultPc := s.pc, word := none } }

/-- A state has a step exactly when it is neither halted nor faulted: every running state has one, and no transition
leaves the other two. 40_cycle R90 (spec's decisions D1, D20). -/
def Obligations.OnlyRunningStatesHaveAStep : Prop :=
  ∀ s : State, (∃ t, step s = .next t) ↔ s.halted = false ∧ s.fault = none

/-- The constructed machine meets the invariant. 10_state R25, R28 (spec's decisions D2, D3, D15), R39. -/
def Obligations.ConstructionMeetsInvariant : Prop := State.reset.Inv

/-- Every step keeps the invariant: memory canonical, `sp` at most 16, `pc` at most 0x10FE, every return address at most
0x1000, and a fault record true of its state. 10_state R25 (derived), R28 and R35 (spec's decisions D1, D2, D3, D23). -/
def Obligations.StepKeepsInvariant : Prop := ∀ s t : State, s.Inv → step s = .next t → t.Inv

/-- A cycle that faults leaves the state before it in every field except `fault`, which records `pc` and the fetched
word. 60_exceptions R211, 40_cycle R95, R97 (spec's decisions D1, D23). -/
def Obligations.FaultingCycleChangesOnlyFault : Prop :=
  ∀ (s t : State) (r : FaultRecord), s.fault = none → step s = .next t → t.fault = some r →
    t = { s with fault := some r } ∧ r.faultPc = s.pc ∧
    (0xFFE < s.pc.toNat → r.cause = .fetchBounds ∧ r.word = none) ∧
    (s.pc.toNat ≤ 0xFFE → ∃ w : Word, r.word = some w ∧
      w.toNat = (s.mem.read s.pc.toNat).toNat * 256 + (s.mem.read (s.pc.toNat + 1)).toNat)

/-- A fault an instruction raises is one of the table of 60_exceptions R210, raised by its instruction under its
condition (spec's decisions D1 to D7). -/
def Obligations.FaultsAreThoseOfTheTable : Prop :=
  ∀ (i : Instr) (s t : State) (r : FaultRecord), s.sp.toNat ≤ 16 → s.fault = none → exec i s = .next t →
    t.fault = some r →
    (r.cause = .stackOverflow ∧ s.sp.toNat = 16 ∧ ∃ nnn, i = .call nnn) ∨
    (r.cause = .stackUnderflow ∧ s.sp.toNat = 0 ∧ i = .ret) ∨
    (r.cause = .memoryBounds ∧
      ((∃ x y n, i = .drw x y n ∧ 0 < n.toNat ∧ 0xFFF < s.i.toNat + n.toNat - 1) ∨
       (∃ x, i = .ldB x ∧ 0xFFF < s.i.toNat + 2) ∨
       (∃ x, (i = .ldMemVx x ∨ i = .ldVxMem x) ∧ 0xFFF < s.i.toNat + x.val))) ∨
    (r.cause = .fontDigitRange ∧ ∃ x, i = .ldF x ∧ 15 < (s.reg x).toNat) ∨
    (r.cause = .keyIndexRange ∧ ∃ x, (i = .skp x ∨ i = .sknp x) ∧ 15 < (s.reg x).toNat) ∨
    (r.cause = .indexOverflow ∧ ∃ x, i = .addI x ∧ 0xFFFF < s.i.toNat + (s.reg x).toNat)

/-- Every cycle that does not fault decrements each timer once, floored at 0, whatever it runs; a timer the cycle wrote
is decremented from the written value. Formalises 40_cycle R96. -/
def Obligations.TimersDecayOnEveryCompletedCycle : Prop :=
  ∀ s t : State, step s = .next t → t.fault = none →
    (∀ x, s.fetch.bind decodeWord = some (.ldStVx x) → t.st.toNat = (s.reg x).toNat - 1) ∧
    ((∀ x, s.fetch.bind decodeWord ≠ some (.ldStVx x)) → t.st.toNat = s.st.toNat - 1) ∧
    (∀ x, s.fetch.bind decodeWord = some (.ldDtVx x) → t.dt.toNat = (s.reg x).toNat - 1) ∧
    ((∀ x, s.fetch.bind decodeWord ≠ some (.ldDtVx x)) → t.dt.toNat = s.dt.toNat - 1)

/-- What each part of the state is written by, over all instructions: a general register by the instructions of the
table of R23, `pc` beyond the cycle's advance by the control transfers and LD Vx,K, the stack by CALL, `sp` by CALL and
RET, `I` by LD I, ADD I and LD F, DT and ST beyond their decrement by LD DT and LD ST, the framebuffer by CLS and DRW,
`must_draw` by DRW, memory by LD B and LD [I], the keypad lines by SKP and SKNP, `halted` by none, and `fault` by a
faulting cycle of an instruction that can fault, which writes nothing else. 10_state R23, R24, R26, R27, R29 to R35 (R32,
R33, R35: spec's decisions D1, D12, D13, D23), 20_memory R51 (derived). -/
def Obligations.EachPartHasItsWriters : Prop :=
  ∀ (i : Instr) (s t : State), exec i s = .next t →
    (∀ j, ¬ MayWriteReg j i → t.reg j = s.reg j) ∧
    ((∀ nnn, i ≠ .call nnn) → ∀ j, t.stackSlot j = s.stackSlot j) ∧
    ((∀ nnn, i ≠ .call nnn) → i ≠ .ret → t.sp = s.sp) ∧
    ((∀ nnn, i ≠ .ldI nnn) → (∀ x, i ≠ .addI x ∧ i ≠ .ldF x) → t.i = s.i) ∧
    (i ≠ .cls → (∀ x y n, i ≠ .drw x y n) → t.fb = s.fb) ∧
    ((∀ x y n, i ≠ .drw x y n) → t.mustDraw = s.mustDraw) ∧
    ((∀ x, i ≠ .ldB x ∧ i ≠ .ldMemVx x) → ∀ a, t.mem.read a = s.mem.read a) ∧
    ((∀ x, i ≠ .skp x ∧ i ≠ .sknp x) → ∀ k, t.keyLine k = s.keyLine k) ∧
    t.halted = s.halted ∧
    ((t.fault = s.fault ∧ (¬ MayWritePc i → t.pc = s.pc + 2#16) ∧
        ((∀ x, i ≠ .ldDtVx x) → t.dt.toNat = s.dt.toNat - 1) ∧
        ((∀ x, i ≠ .ldStVx x) → t.st.toNat = s.st.toNat - 1)) ∨
      (MayFault i ∧ ∃ r : FaultRecord, r.faultPc = s.pc ∧ t = { s with fault := some r }))

/-- No instruction sets a keypad line to pressed. 45_timers_keypad R196 (derived there from R194 and R195). -/
def Obligations.NoInstructionPressesAKey : Prop :=
  ∀ (i : Instr) (s t : State), exec i s = .next t → ∀ k, t.keyLine k = true → s.keyLine k = true

/-- Only RND reads the random draw: for every other instruction another draw changes nothing the instruction leaves,
whatever the draws are. 40_cycle R99 (spec's decision D19); the counter of the draws is the model's own (log 2). -/
def Obligations.RandomDrawReachesOnlyRnd : Prop :=
  ∀ (i : Instr) (s t : State) (k : Nat), (∀ x kk, i ≠ .rnd x kk) → exec i s = .next t →
    ∃ k', exec i { s with drawIndex := k } = .next { t with drawIndex := k' }

/-- No instruction reads the sound timer, and none reads `must_draw`: with other values of the two, the rest of what an
instruction leaves is the same. 10_state R30, R33 ("No instruction reads it" in both). -/
def Obligations.SoundTimerAndDrawFlagAreNeverRead : Prop :=
  ∀ (i : Instr) (s t : State) (b : Byte) (d : Bool), exec i s = .next t →
    ∃ b' d', exec i { s with st := b, mustDraw := d } = .next { t with st := b', mustDraw := d' }

/-! Control flow (41_control_flow). -/

/-- JP addr. 41_control_flow R112 (the pattern and the id are general knowledge the spec supplies, log 1, PRESUMED,
spec's decision D9). -/
def Obligations.JumpGoesToItsTarget : Prop :=
  ∀ (nnn : Addr12) (s : State),
    encode (.jp nnn) = (0x1#4 ++ nnn : BitVec 16) ∧ dispatchId (encode (.jp nnn)) = 0x1000#16 ∧
    ∃ t, exec (.jp nnn) s = .next t ∧ t.pc.toNat = nnn.toNat ∧
      RegsKeptBut (fun _ => False) s t ∧ LeavesAllBut [] s t

/-- CALL addr: the return address goes to `stack[sp]`, `sp` counts up, the other slots are kept; with all 16 slots in
use it raises StackOverflow. 41_control_flow R113 (spec's decision D2). -/
def Obligations.CallPushesAndJumps : Prop :=
  ∀ (nnn : Addr12) (s : State),
    (∀ h : s.sp.toNat < 16, ∃ t, exec (.call nnn) s = .next t ∧
      t.stackSlot ⟨s.sp.toNat, h⟩ = s.pc + 2#16 ∧ (∀ j : Fin 16, j.val ≠ s.sp.toNat → t.stackSlot j = s.stackSlot j) ∧
      t.sp.toNat = s.sp.toNat + 1 ∧ t.pc.toNat = nnn.toNat ∧
      RegsKeptBut (fun _ => False) s t ∧ LeavesAllBut [.stackSlots, .stackPointer] s t) ∧
    (s.sp.toNat = 16 → Faults (.call nnn) s .stackOverflow)

/-- RET: `sp` counts down and `pc` becomes the slot it then names, which keeps its value; with nothing on the stack it
raises StackUnderflow. 41_control_flow R111 (spec's decision D3). `sp` at most 16 is the invariant of R28. -/
def Obligations.ReturnPopsAndJumps : Prop :=
  ∀ s : State,
    (∀ j : Fin 16, s.sp.toNat = j.val + 1 → ∃ t, exec .ret s = .next t ∧ t.pc = s.stackSlot j ∧
      t.sp.toNat = j.val ∧ RegsKeptBut (fun _ => False) s t ∧ LeavesAllBut [.stackPointer] s t) ∧
    (s.sp.toNat = 0 → Faults .ret s .stackUnderflow)

/-- SE Vx,kk: on equality execution goes on at the instruction's address + 4. 41_control_flow R114 (the pattern and the
id are general knowledge the spec supplies, log 1, PRESUMED, spec's decision D9). -/
def Obligations.SkipIfEqualToImmediate : Prop :=
  ∀ (x : RegIdx) (kk : Byte) (s : State),
    encode (.seImm x kk) = (0x3#4 ++ BitVec.ofNat 4 x.val ++ kk : BitVec 16) ∧
    dispatchId (encode (.seImm x kk)) = 0x3000#16 ∧
    ∃ t, exec (.seImm x kk) s = .next t ∧ t.pc = (if s.reg x = kk then s.pc + 4#16 else s.pc + 2#16) ∧
      RegsKeptBut (fun _ => False) s t ∧ LeavesAllBut [] s t

/-- SNE Vx,kk. 41_control_flow R115 (the pattern and the id are general knowledge the spec supplies, log 1, PRESUMED,
spec's decision D9). -/
def Obligations.SkipIfNotEqualToImmediate : Prop :=
  ∀ (x : RegIdx) (kk : Byte) (s : State),
    encode (.sneImm x kk) = (0x4#4 ++ BitVec.ofNat 4 x.val ++ kk : BitVec 16) ∧
    dispatchId (encode (.sneImm x kk)) = 0x4000#16 ∧
    ∃ t, exec (.sneImm x kk) s = .next t ∧ t.pc = (if s.reg x = kk then s.pc + 2#16 else s.pc + 4#16) ∧
      RegsKeptBut (fun _ => False) s t ∧ LeavesAllBut [] s t

/-- SE Vx,Vy, whatever the ignored low nibble holds. 41_control_flow R116 (spec's decision D10, log 7; the pattern and
the id are general knowledge the spec supplies, log 1, PRESUMED, spec's decision D9). -/
def Obligations.SkipIfRegistersEqual : Prop :=
  ∀ (x y : RegIdx) (low : Nibble) (s : State),
    encode (.seReg x y low) = (0x5#4 ++ BitVec.ofNat 4 x.val ++ BitVec.ofNat 4 y.val ++ low : BitVec 16) ∧
    dispatchId (encode (.seReg x y low)) = 0x5000#16 ∧
    ∃ t, exec (.seReg x y low) s = .next t ∧ t.pc = (if s.reg x = s.reg y then s.pc + 4#16 else s.pc + 2#16) ∧
      RegsKeptBut (fun _ => False) s t ∧ LeavesAllBut [] s t

/-- SNE Vx,Vy; with another low nibble than 0 the word is no instruction (what such a word does is
`UnassignedWordIsNoOp`). 41_control_flow R117 (the pattern and the id are general knowledge the spec supplies, log 1,
PRESUMED, spec's decision D9, and so is which words are no instruction). -/
def Obligations.SkipIfRegistersDiffer : Prop :=
  ∀ (x y : RegIdx) (s : State),
    encode (.sneReg x y) = (0x9#4 ++ BitVec.ofNat 4 x.val ++ BitVec.ofNat 4 y.val ++ 0x0#4 : BitVec 16) ∧
    dispatchId (encode (.sneReg x y)) = 0x9000#16 ∧
    (∀ n : Nibble, n ≠ 0#4 →
      decodeWord (0x9#4 ++ BitVec.ofNat 4 x.val ++ BitVec.ofNat 4 y.val ++ n : BitVec 16) = none) ∧
    ∃ t, exec (.sneReg x y) s = .next t ∧ t.pc = (if s.reg x = s.reg y then s.pc + 2#16 else s.pc + 4#16) ∧
      RegsKeptBut (fun _ => False) s t ∧ LeavesAllBut [] s t

/-- JP V0,addr: the sum is not reduced. 41_control_flow R118 (spec's decision D26). -/
def Obligations.IndexedJumpAddsV0 : Prop :=
  ∀ (nnn : Addr12) (s : State),
    ∃ t, exec (.jpV0 nnn) s = .next t ∧ t.pc.toNat = (s.reg 0).toNat + nnn.toNat ∧
      RegsKeptBut (fun _ => False) s t ∧ LeavesAllBut [] s t

/-! The ALU (42_alu). -/

/-- LD Vx,kk. 42_alu R131 (the pattern and the id are general knowledge the spec supplies, log 1, PRESUMED, spec's
decision D9). -/
def Obligations.LoadImmediateWritesTheByte : Prop :=
  ∀ (x : RegIdx) (kk : Byte) (s : State),
    encode (.ldImm x kk) = (0x6#4 ++ BitVec.ofNat 4 x.val ++ kk : BitVec 16) ∧
    dispatchId (encode (.ldImm x kk)) = 0x6000#16 ∧
    ∃ t, exec (.ldImm x kk) s = .next t ∧ t.reg x = kk ∧ t.pc = s.pc + 2#16 ∧
      RegsKeptBut (fun j => j = x) s t ∧ LeavesAllBut [] s t

/-- ADD Vx,kk: wraps, and VF is no flag of it. 42_alu R132 (the pattern and the id are general knowledge the spec
supplies, log 1, PRESUMED, spec's decision D9). -/
def Obligations.AddImmediateWrapsSilently : Prop :=
  ∀ (x : RegIdx) (kk : Byte) (s : State),
    encode (.addImm x kk) = (0x7#4 ++ BitVec.ofNat 4 x.val ++ kk : BitVec 16) ∧
    dispatchId (encode (.addImm x kk)) = 0x7000#16 ∧
    ∃ t, exec (.addImm x kk) s = .next t ∧ (t.reg x).toNat = ((s.reg x).toNat + kk.toNat) % 256 ∧
      t.pc = s.pc + 2#16 ∧ RegsKeptBut (fun j => j = x) s t ∧ LeavesAllBut [] s t

/-- LD Vx,Vy. 42_alu R133 (the pattern and the id are general knowledge the spec supplies, log 1, PRESUMED, spec's
decision D9). -/
def Obligations.CopyRegisterCopies : Prop :=
  ∀ (x y : RegIdx) (s : State),
    encode (.ldReg x y) = (0x8#4 ++ BitVec.ofNat 4 x.val ++ BitVec.ofNat 4 y.val ++ 0x0#4 : BitVec 16) ∧
    dispatchId (encode (.ldReg x y)) = 0x8000#16 ∧
    ∃ t, exec (.ldReg x y) s = .next t ∧ t.reg x = s.reg y ∧ t.pc = s.pc + 2#16 ∧
      RegsKeptBut (fun j => j = x) s t ∧ LeavesAllBut [] s t

/-- OR, AND and XOR Vx,Vy write Vx, bit by bit, and VF only when it is Vx. 42_alu R134, R135 and R136 (the patterns and
the ids are general knowledge the spec supplies, log 1, PRESUMED, spec's decision D9). -/
def Obligations.LogicOperationsWriteOnlyVx : Prop :=
  ∀ (x y : RegIdx) (s : State),
    encode (.orReg x y) = (0x8#4 ++ BitVec.ofNat 4 x.val ++ BitVec.ofNat 4 y.val ++ 0x1#4 : BitVec 16) ∧
    encode (.andReg x y) = (0x8#4 ++ BitVec.ofNat 4 x.val ++ BitVec.ofNat 4 y.val ++ 0x2#4 : BitVec 16) ∧
    encode (.xorReg x y) = (0x8#4 ++ BitVec.ofNat 4 x.val ++ BitVec.ofNat 4 y.val ++ 0x3#4 : BitVec 16) ∧
    dispatchId (encode (.orReg x y)) = 0x8001#16 ∧ dispatchId (encode (.andReg x y)) = 0x8002#16 ∧
    dispatchId (encode (.xorReg x y)) = 0x8003#16 ∧
    (∃ t, exec (.orReg x y) s = .next t ∧
      (∀ b, (t.reg x).getLsbD b = ((s.reg x).getLsbD b || (s.reg y).getLsbD b)) ∧
      t.pc = s.pc + 2#16 ∧ RegsKeptBut (fun j => j = x) s t ∧ LeavesAllBut [] s t) ∧
    (∃ t, exec (.andReg x y) s = .next t ∧
      (∀ b, (t.reg x).getLsbD b = ((s.reg x).getLsbD b && (s.reg y).getLsbD b)) ∧
      t.pc = s.pc + 2#16 ∧ RegsKeptBut (fun j => j = x) s t ∧ LeavesAllBut [] s t) ∧
    (∃ t, exec (.xorReg x y) s = .next t ∧
      (∀ b, (t.reg x).getLsbD b = ((s.reg x).getLsbD b ^^ (s.reg y).getLsbD b)) ∧
      t.pc = s.pc + 2#16 ∧ RegsKeptBut (fun j => j = x) s t ∧ LeavesAllBut [] s t)

/-- ADD Vx,Vy: Vx is the sum mod 256, and VF, unless it is Vx, is 1 exactly when the untruncated sum exceeds 255. Both
read the registers before the cycle, so y = F adds the old VF. 42_alu R137, R143 (spec's decision D8 where x or y is F,
log 8; the pattern and the id are general knowledge the spec supplies, log 1, PRESUMED, spec's decision D9). -/
def Obligations.AddRegistersCarriesIntoVF : Prop :=
  ∀ (x y : RegIdx) (s : State),
    encode (.addReg x y) = (0x8#4 ++ BitVec.ofNat 4 x.val ++ BitVec.ofNat 4 y.val ++ 0x4#4 : BitVec 16) ∧
    dispatchId (encode (.addReg x y)) = 0x8004#16 ∧
    ∃ t, exec (.addReg x y) s = .next t ∧
      (t.reg x).toNat = ((s.reg x).toNat + (s.reg y).toNat) % 256 ∧
      (x ≠ 15 → t.reg 15 = if (s.reg x).toNat + (s.reg y).toNat > 255 then 1#8 else 0#8) ∧
      t.pc = s.pc + 2#16 ∧ RegsKeptBut (fun j => j = x ∨ j = 15) s t ∧ LeavesAllBut [] s t

/-- SUB and SUBN Vx,Vy: the flag `f` is the strict comparison of the old registers; the difference is mod 256 of the
registers with VF already holding `f`; with x = F the difference stands in VF. 42_alu R138, R140, R143 (spec's decision
D8; log 8). -/
def Obligations.SubtractionsFlagStrictlyFirst : Prop :=
  ∀ (x y : RegIdx) (s : State),
    (∃ t, exec (.subReg x y) s = .next t ∧
      (∃ f : Nat, f = (if (s.reg x).toNat > (s.reg y).toNat then 1 else 0) ∧
        ((t.reg x).toNat : Int) = ((if x = 15 then (f : Int) else ((s.reg x).toNat : Int)) -
          (if y = 15 then (f : Int) else ((s.reg y).toNat : Int))) % 256 ∧
        (x ≠ 15 → (t.reg 15).toNat = f)) ∧
      t.pc = s.pc + 2#16 ∧ RegsKeptBut (fun j => j = x ∨ j = 15) s t ∧ LeavesAllBut [] s t) ∧
    (∃ t, exec (.subnReg x y) s = .next t ∧
      (∃ f : Nat, f = (if (s.reg y).toNat > (s.reg x).toNat then 1 else 0) ∧
        ((t.reg x).toNat : Int) = ((if y = 15 then (f : Int) else ((s.reg y).toNat : Int)) -
          (if x = 15 then (f : Int) else ((s.reg x).toNat : Int))) % 256 ∧
        (x ≠ 15 → (t.reg 15).toNat = f)) ∧
      t.pc = s.pc + 2#16 ∧ RegsKeptBut (fun j => j = x ∨ j = 15) s t ∧ LeavesAllBut [] s t)

/-- SHR and SHL Vx, whatever the ignored nibble holds: VF gets the bit shifted out, and Vx is halved or doubled mod 256;
with x = F the shifted flag stands in VF (0 after SHR; 2 or 0 after SHL). 42_alu R139, R141, R143 (spec's decision D8;
log 8). -/
def Obligations.ShiftsPutTheLostBitIntoVF : Prop :=
  ∀ (x : RegIdx) (g : Nibble) (s : State),
    (∃ t, exec (.shr x g) s = .next t ∧
      (x ≠ 15 → (t.reg x).toNat = (s.reg x).toNat / 2 ∧ (t.reg 15).toNat = (s.reg x).toNat % 2) ∧
      (x = 15 → (t.reg 15).toNat = 0) ∧
      t.pc = s.pc + 2#16 ∧ RegsKeptBut (fun j => j = x ∨ j = 15) s t ∧ LeavesAllBut [] s t) ∧
    (∃ t, exec (.shl x g) s = .next t ∧
      (x ≠ 15 → (t.reg x).toNat = (s.reg x).toNat * 2 % 256 ∧ (t.reg 15).toNat = (s.reg x).toNat / 128) ∧
      (x = 15 → (t.reg 15).toNat = if (s.reg x).toNat ≥ 0x80 then 2 else 0) ∧
      t.pc = s.pc + 2#16 ∧ RegsKeptBut (fun j => j = x ∨ j = 15) s t ∧ LeavesAllBut [] s t)

/-- RND Vx,kk: the cycle's free draw under the mask, whatever the draw is; no bit outside the mask is set. 42_alu R142
(spec's decision D19). The draw is a free value of the model, `Config.randomDraw` (log 2). -/
def Obligations.RandomByteIsMasked : Prop :=
  ∀ (x : RegIdx) (kk : Byte) (s : State),
    ∃ t, exec (.rnd x kk) s = .next t ∧ t.reg x = Config.randomDraw s.drawIndex &&& kk ∧
      (t.reg x).toNat ≤ kk.toNat ∧ t.pc = s.pc + 2#16 ∧ RegsKeptBut (fun j => j = x) s t ∧ LeavesAllBut [] s t

/-! The index register and the memory block (43_index_memory). -/

/-- LD I,addr. 43_index_memory R151 (the pattern and the id are general knowledge the spec supplies, log 1, PRESUMED,
spec's decision D9). -/
def Obligations.LoadIndexWritesTheAddress : Prop :=
  ∀ (nnn : Addr12) (s : State),
    encode (.ldI nnn) = (0xA#4 ++ nnn : BitVec 16) ∧ dispatchId (encode (.ldI nnn)) = 0xA000#16 ∧
    ∃ t, exec (.ldI nnn) s = .next t ∧ t.i.toNat = nnn.toNat ∧ t.pc = s.pc + 2#16 ∧
      RegsKeptBut (fun _ => False) s t ∧ LeavesAllBut [.index] s t

/-- ADD I,Vx: no flag; a sum of more than 16 bits raises IndexOverflow. 43_index_memory R152 (spec's decisions D7,
D24). -/
def Obligations.AddToIndexOrOverflow : Prop :=
  ∀ (x : RegIdx) (s : State),
    (s.i.toNat + (s.reg x).toNat ≤ 0xFFFF → ∃ t, exec (.addI x) s = .next t ∧
      t.i.toNat = s.i.toNat + (s.reg x).toNat ∧ t.pc = s.pc + 2#16 ∧
      RegsKeptBut (fun _ => False) s t ∧ LeavesAllBut [.index] s t) ∧
    (0xFFFF < s.i.toNat + (s.reg x).toNat → Faults (.addI x) s .indexOverflow)

/-- LD F,Vx: the glyph of a digit; above 15 it raises FontDigitRange. 43_index_memory R153 (spec's decision D5). -/
def Obligations.PointAtGlyphOrFault : Prop :=
  ∀ (x : RegIdx) (s : State),
    ((s.reg x).toNat ≤ 15 → ∃ t, exec (.ldF x) s = .next t ∧ t.i.toNat = 0x050 + (s.reg x).toNat * 5 ∧
      t.pc = s.pc + 2#16 ∧ RegsKeptBut (fun _ => False) s t ∧ LeavesAllBut [.index] s t) ∧
    (15 < (s.reg x).toNat → Faults (.ldF x) s .fontDigitRange)

/-- LD B,Vx: the digits at `I`, `I + 1`, `I + 2`, every other byte as before; MemoryBounds when the last of the three is
above 0xFFF. 43_index_memory R154 (spec's decision D4). -/
def Obligations.StoreDecimalDigits : Prop :=
  ∀ (x : RegIdx) (s : State),
    (s.i.toNat + 2 ≤ 0xFFF → ∃ t, exec (.ldB x) s = .next t ∧
      (t.mem.read s.i.toNat).toNat = (s.reg x).toNat / 100 ∧
      (t.mem.read (s.i.toNat + 1)).toNat = (s.reg x).toNat / 10 % 10 ∧
      (t.mem.read (s.i.toNat + 2)).toNat = (s.reg x).toNat % 10 ∧
      (∀ a, a < s.i.toNat ∨ s.i.toNat + 2 < a → t.mem.read a = s.mem.read a) ∧
      t.pc = s.pc + 2#16 ∧ RegsKeptBut (fun _ => False) s t ∧ LeavesAllBut [.memory] s t) ∧
    (0xFFF < s.i.toNat + 2 → Faults (.ldB x) s .memoryBounds)

/-- LD [I],Vx: V0 to Vx at `I` and up, every other byte and `I` as before; MemoryBounds when the last byte is above
0xFFF. 43_index_memory R155 (spec's decision D4). -/
def Obligations.StoreRegistersAtIndex : Prop :=
  ∀ (x : RegIdx) (s : State),
    (s.i.toNat + x.val ≤ 0xFFF → ∃ t, exec (.ldMemVx x) s = .next t ∧
      (∀ k : RegIdx, k ≤ x → t.mem.read (s.i.toNat + k.val) = s.reg k) ∧
      (∀ a, a < s.i.toNat ∨ s.i.toNat + x.val < a → t.mem.read a = s.mem.read a) ∧
      t.pc = s.pc + 2#16 ∧ RegsKeptBut (fun _ => False) s t ∧ LeavesAllBut [.memory] s t) ∧
    (0xFFF < s.i.toNat + x.val → Faults (.ldMemVx x) s .memoryBounds)

/-- LD Vx,[I]: V0 to Vx from `I` and up, the registers above x and `I` as before; MemoryBounds when the last byte is
above 0xFFF. 43_index_memory R156 (spec's decision D4). -/
def Obligations.LoadRegistersFromIndex : Prop :=
  ∀ (x : RegIdx) (s : State),
    (s.i.toNat + x.val ≤ 0xFFF → ∃ t, exec (.ldVxMem x) s = .next t ∧
      (∀ k : RegIdx, k ≤ x → t.reg k = s.mem.read (s.i.toNat + k.val)) ∧
      t.pc = s.pc + 2#16 ∧ RegsKeptBut (fun j => j ≤ x) s t ∧ LeavesAllBut [] s t) ∧
    (0xFFF < s.i.toNat + x.val → Faults (.ldVxMem x) s .memoryBounds)

/-- A store into the instruction stream is fetched by the very next cycle: after LD [I],Vx and LD B,Vx that word is the
two bytes after the instruction as the store left them, whether the stored block covers both, one or none of them.
20_memory R64, 70_reset_and_hazards R245 (both derived; spec's decision D27). -/
def Obligations.StoredWordIsFetchedNext : Prop :=
  ∀ (x : RegIdx) (s : State), s.pc.toNat + 3 ≤ 0xFFF →
    (s.i.toNat + x.val ≤ 0xFFF → ∃ t, exec (.ldMemVx x) s = .next t ∧
      t.fetch = some (byteOver s.mem s.i.toNat (((List.finRange 16).map s.reg).take (x.val + 1)) (s.pc.toNat + 2) ++
        byteOver s.mem s.i.toNat (((List.finRange 16).map s.reg).take (x.val + 1)) (s.pc.toNat + 3) : BitVec 16)) ∧
    (s.i.toNat + 2 ≤ 0xFFF → ∃ t, exec (.ldB x) s = .next t ∧
      t.fetch = some (byteOver s.mem s.i.toNat [narrow8 ((s.reg x).toNat / 100), narrow8 ((s.reg x).toNat / 10 % 10),
          narrow8 ((s.reg x).toNat % 10)] (s.pc.toNat + 2) ++
        byteOver s.mem s.i.toNat [narrow8 ((s.reg x).toNat / 100), narrow8 ((s.reg x).toNat / 10 % 10),
          narrow8 ((s.reg x).toNat % 10)] (s.pc.toNat + 3) : BitVec 16))

/-! The framebuffer (44_display). -/

/-- CLS: every cell off; neither VF nor `must_draw` is written. 44_display R171 (spec's decision D13; log 9). -/
def Obligations.ClearScreenTurnsAllCellsOff : Prop :=
  ∀ s : State, ∃ t, exec .cls s = .next t ∧ (∀ row col, t.fb.cell row col = false) ∧ t.pc = s.pc + 2#16 ∧
    RegsKeptBut (fun _ => False) s t ∧ LeavesAllBut [.framebuffer] s t

/-- DRW Vx,Vy,n, cell by cell: a cell under a set sprite bit is toggled, every other cell is kept, VF says whether a
toggled cell was on, `must_draw` is set; MemoryBounds, with nothing drawn, when the sprite passes 0xFFF. 44_display
R172, R173 (spec's decisions D4, D11, D25; log 6, log 12). -/
def Obligations.DrawTogglesTheSpriteCells : Prop :=
  ∀ (x y : RegIdx) (n : Nibble) (s : State),
    (BlockInMemory s n.toNat → ∃ t, exec (.drw x y n) s = .next t ∧
      (∀ row col, SpriteSets s x y n row col → t.fb.cell row col = !s.fb.cell row col) ∧
      (∀ row col, ¬ SpriteSets s x y n row col → t.fb.cell row col = s.fb.cell row col) ∧
      ((∃ row col, SpriteSets s x y n row col ∧ s.fb.cell row col = true) → t.reg 15 = 1#8) ∧
      ((∀ row col, SpriteSets s x y n row col → s.fb.cell row col = false) → t.reg 15 = 0#8) ∧
      t.mustDraw = true ∧ t.pc = s.pc + 2#16 ∧ RegsKeptBut (fun j => j = 15) s t ∧
      LeavesAllBut [.framebuffer, .mustDraw] s t) ∧
    (0 < n.toNat → 0xFFF < s.i.toNat + (n.toNat - 1) → Faults (.drw x y n) s .memoryBounds)

/-- Drawing the same sprite at the same origin twice restores the framebuffer exactly. The second draw collides whenever
a set bit of the sprite lies on a cell that was off before the first draw, and only then: if all of them lie on cells
that were on, the first draw has turned these off. The second draw starts with VF put back to what it was, so that the
origin is the same even when x or y is F. 44_display R172 and R174 (derived from R172, and too wide in its second
sentence: log 17). -/
def Obligations.DrawingTwiceRestoresTheScreen : Prop :=
  ∀ (x y : RegIdx) (n : Nibble) (s : State), BlockInMemory s n.toNat →
    ∃ t u, exec (.drw x y n) s = .next t ∧ exec (.drw x y n) (t.setReg 15 (s.reg 15)) = .next u ∧ u.fb = s.fb ∧
      ((∃ row col, SpriteSets s x y n row col ∧ s.fb.cell row col = false) → u.reg 15 = 1#8) ∧
      ((∀ row col, SpriteSets s x y n row col → s.fb.cell row col = true) → u.reg 15 = 0#8)

/-- A draw of a sprite with p set bits, c of them on cells that were on, changes the number of cells on by p - 2c.
44_display R174 (derived from R172). -/
def Obligations.DrawChangesCellCount : Prop :=
  ∀ (x y : RegIdx) (n : Nibble) (s : State), BlockInMemory s n.toNat →
    ∃ t, exec (.drw x y n) s = .next t ∧
      t.fb.onCells.card + 2 * (spriteHits s x y n).card = s.fb.onCells.card + (spriteBits s n).card

/-! Timers and keypad (45_timers_keypad). -/

/-- LD Vx,DT: the value before this cycle's decay. 45_timers_keypad R191 (the pattern and the id are general knowledge
the spec supplies, log 1, PRESUMED, spec's decision D9). -/
def Obligations.ReadDelayTimerBeforeDecay : Prop :=
  ∀ (x : RegIdx) (s : State),
    encode (.ldVxDt x) = (0xF#4 ++ BitVec.ofNat 4 x.val ++ 0x07#8 : BitVec 16) ∧
    dispatchId (encode (.ldVxDt x)) = 0xF007#16 ∧
    ∃ t, exec (.ldVxDt x) s = .next t ∧ t.reg x = s.dt ∧ t.pc = s.pc + 2#16 ∧
      RegsKeptBut (fun j => j = x) s t ∧ LeavesAllBut [] s t

/-- LD DT,Vx: the written value has decayed once by the end of the cycle. 45_timers_keypad R192 (the pattern and the id
are general knowledge the spec supplies, log 1, PRESUMED, spec's decision D9). -/
def Obligations.SetDelayTimerThenDecay : Prop :=
  ∀ (x : RegIdx) (s : State),
    encode (.ldDtVx x) = (0xF#4 ++ BitVec.ofNat 4 x.val ++ 0x15#8 : BitVec 16) ∧
    dispatchId (encode (.ldDtVx x)) = 0xF015#16 ∧
    ∃ t, exec (.ldDtVx x) s = .next t ∧ t.dt.toNat = (s.reg x).toNat - 1 ∧ t.pc = s.pc + 2#16 ∧
      RegsKeptBut (fun _ => False) s t ∧ LeavesAllBut [.delayTimer] s t

/-- LD ST,Vx: the written value has decayed once by the end of the cycle, so that 1 is never seen as sound.
45_timers_keypad R193 (the pattern and the id are general knowledge the spec supplies, log 1, PRESUMED, spec's decision
D9; `sound_active` is its decision D31). -/
def Obligations.SetSoundTimerThenDecay : Prop :=
  ∀ (x : RegIdx) (s : State),
    encode (.ldStVx x) = (0xF#4 ++ BitVec.ofNat 4 x.val ++ 0x18#8 : BitVec 16) ∧
    dispatchId (encode (.ldStVx x)) = 0xF018#16 ∧
    ∃ t, exec (.ldStVx x) s = .next t ∧ t.st.toNat = (s.reg x).toNat - 1 ∧
      (t.soundActive = true ↔ 1 < (s.reg x).toNat) ∧ t.pc = s.pc + 2#16 ∧
      RegsKeptBut (fun _ => False) s t ∧ LeavesAllBut [.soundTimer] s t

/-- SKP Vx: a pressed line is skipped on and cleared, the others are kept; a value above 15 names no line and raises
KeyIndexRange. 45_timers_keypad R194, R190 (spec's decision D6). -/
def Obligations.SkipIfKeyPressedConsumes : Prop :=
  ∀ (x : RegIdx) (s : State),
    (∀ k : KeyIdx, (s.reg x).toNat = k.val → ∃ t, exec (.skp x) s = .next t ∧
      t.pc = (if s.keyLine k = true then s.pc + 4#16 else s.pc + 2#16) ∧ t.keyLine k = false ∧
      (∀ j, j ≠ k → t.keyLine j = s.keyLine j) ∧
      RegsKeptBut (fun _ => False) s t ∧ LeavesAllBut [.keypad] s t) ∧
    (15 < (s.reg x).toNat → Faults (.skp x) s .keyIndexRange)

/-- SKNP Vx: a released line is skipped on, a pressed one is cleared without a skip, the others are kept; a value above 15
raises KeyIndexRange. 45_timers_keypad R195, R190 (spec's decision D6). -/
def Obligations.SkipIfKeyNotPressedConsumes : Prop :=
  ∀ (x : RegIdx) (s : State),
    (∀ k : KeyIdx, (s.reg x).toNat = k.val → ∃ t, exec (.sknp x) s = .next t ∧
      t.pc = (if s.keyLine k = true then s.pc + 2#16 else s.pc + 4#16) ∧ t.keyLine k = false ∧
      (∀ j, j ≠ k → t.keyLine j = s.keyLine j) ∧
      RegsKeptBut (fun _ => False) s t ∧ LeavesAllBut [.keypad] s t) ∧
    (15 < (s.reg x).toNat → Faults (.sknp x) s .keyIndexRange)

/-- LD Vx,K: the lowest pressed line's number, no line cleared; with no line pressed `pc` stays at the instruction and
only the timers change. 45_timers_keypad R197 (spec's decision D14; log 10). -/
def Obligations.WaitForKeyTakesTheLowest : Prop :=
  ∀ (x : RegIdx) (s : State),
    (∀ k : KeyIdx, s.keyLine k = true → (∀ j, j < k → s.keyLine j = false) →
      ∃ t, exec (.ldVxK x) s = .next t ∧ (t.reg x).toNat = k.val ∧ t.pc = s.pc + 2#16 ∧
        RegsKeptBut (fun j => j = x) s t ∧ LeavesAllBut [] s t) ∧
    ((∀ k, s.keyLine k = false) →
      ∃ t, exec (.ldVxK x) s = .next t ∧ t.pc = s.pc ∧ RegsKeptBut (fun _ => False) s t ∧ LeavesAllBut [] s t)

/-- While LD Vx,K waits with no key pressed, any number of steps leaves everything but the timers as it was, and each
timer counts down by one a step, floored at 0. 70_reset_and_hazards R248 (derived), 45_timers_keypad R197 (spec's
decision D14). -/
def Obligations.StalledWaitOnlyRunsTheTimersDown : Prop :=
  ∀ (n : Nat) (x : RegIdx) (s : State), s.halted = false → s.fault = none →
    s.fetch.bind decodeWord = some (.ldVxK x) → (∀ k, s.keyLine k = false) →
    ∃ t, Host.Core.run core n s = .next t ∧ t.pc = s.pc ∧ RegsKeptBut (fun _ => False) s t ∧
      t.dt.toNat = s.dt.toNat - n ∧ t.st.toNat = s.st.toNat - n ∧ LeavesAllBut [.delayTimer, .soundTimer] s t

/-! The host interface (60_exceptions, 70_reset_and_hazards). -/

/-- The host's events touch nothing but their field: a key event its line, the acknowledgement `must_draw`, the halt
`halted`; the halt is idempotent, and after it there is no step. 60_exceptions R225 (spec's decision D21), R226, R228;
40_cycle R104. -/
def Obligations.HostEventsTouchOnlyTheirField : Prop :=
  ∀ (s : State) (k : KeyIdx) (p : Bool),
    ((s.keyEvent k p).keyLine k = p ∧ (∀ j, j ≠ k → (s.keyEvent k p).keyLine j = s.keyLine j) ∧
      { s.keyEvent k p with key := s.key } = s) ∧
    (s.ackDraw.mustDraw = false ∧ { s.ackDraw with mustDraw := s.mustDraw } = s) ∧
    (s.halt.halted = true ∧ { s.halt with halted := s.halted } = s ∧ s.halt.halt = s.halt ∧
      ∀ t, step s.halt ≠ .next t)

/-- A font or a program of at most its limit is copied to its base and nothing else changes; a longer one fails.
70_reset_and_hazards R241 (spec's decision D22; 90_conflicts C2). -/
def Obligations.LoadsCopyImagesOfLegalSize : Prop :=
  ∀ (s : State) (image : List Byte),
    (image.length ≤ 80 → ∃ t, s.loadFont image = .ok t ∧
      (∀ k (h : k < image.length), t.mem.read (0x050 + k) = image[k]) ∧
      (∀ a, a < 0x050 ∨ 0x050 + image.length ≤ a → t.mem.read a = s.mem.read a) ∧ { t with mem := s.mem } = s) ∧
    (80 < image.length → s.loadFont image = .error .fontTooLarge) ∧
    (image.length ≤ 3583 → ∃ t, s.loadProgram image = .ok t ∧
      (∀ k (h : k < image.length), t.mem.read (0x200 + k) = image[k]) ∧
      (∀ a, a < 0x200 ∨ 0x200 + image.length ≤ a → t.mem.read a = s.mem.read a) ∧ { t with mem := s.mem } = s) ∧
    (3583 < image.length → s.loadProgram image = .error .programTooLarge)

/-- The launch state does not depend on the order of the two loads. 70_reset_and_hazards R242 (derived from R241). -/
def Obligations.LaunchDoesNotDependOnLoadOrder : Prop :=
  ∀ (font program : List Byte), font.length ≤ 80 → program.length ≤ 3583 →
    ∃ t, launch font program = .ok t ∧ (State.reset.loadProgram program).bind (·.loadFont font) = .ok t

/-- What the host may do when, and what it then does: a load before the first cycle answers the loaded machine or notes
its error, and there is none after it; a cycle of a running machine with both loads and no failed one answers the stepped
machine, and there is no other; a key event, the acknowledgement and the halt act on the machine at any time; a pending
halt goes before a requested cycle. 60_exceptions R216, R223, R224, R228, R231 and 40_cycle R105 (spec's decisions D18,
D20, D22). The record of the loads is the model's own, and so is that key events, acknowledgements and loads are carried
out on a machine that is halted, faulted or has a failed load (log 14). -/
def Obligations.HostOperationsKeepTheContract : Prop :=
  ∀ (b : Block) (image : List Byte) (k : KeyIdx) (p : Bool),
    (b.cycled = true → b.perform (.loadFont image) = none ∧ b.perform (.loadProgram image) = none) ∧
    (b.cycled = false →
      (∀ s, b.machine.loadFont image = .ok s →
        b.perform (.loadFont image) = some { b with machine := s, fontLoaded := true }) ∧
      (∀ s, b.machine.loadProgram image = .ok s →
        b.perform (.loadProgram image) = some { b with machine := s, programLoaded := true }) ∧
      (∀ e, b.machine.loadFont image = .error e → b.perform (.loadFont image) = some { b with loadFailed := some e }) ∧
      (∀ e, b.machine.loadProgram image = .error e →
        b.perform (.loadProgram image) = some { b with loadFailed := some e })) ∧
    ((b.fontLoaded = false ∨ b.programLoaded = false ∨ b.loadFailed ≠ none ∨ b.machine.halted = true ∨
        b.machine.fault ≠ none) → b.perform .cycle = none) ∧
    (b.fontLoaded = true → b.programLoaded = true → b.loadFailed = none → b.machine.halted = false →
      b.machine.fault = none →
      ∃ t, step b.machine = .next t ∧ b.perform .cycle = some { b with machine := t, cycled := true }) ∧
    b.perform (.key k p) = some { b with machine := b.machine.keyEvent k p } ∧
    b.perform .ackDraw = some { b with machine := b.machine.ackDraw } ∧
    b.perform .halt = some { b with machine := b.machine.halt } ∧
    b.boundary true true = b.perform .halt ∧ b.boundary true false = b.perform .halt ∧
    b.boundary false true = b.perform .cycle ∧ b.boundary false false = some b

/-- The invariant holds of the launch state of every font and program of legal size, and every operation of the host
keeps it: the loads, a cycle, a key event, the acknowledgement and the halt. So it holds of every state a host can bring
about. 10_state R25 (derived), R28, R35, 60_exceptions R223, 70_reset_and_hazards R241, R242 (spec's decisions D1, D2,
D3, D18, D22, D23; log 14). -/
def Obligations.HostOperationsKeepInvariant : Prop :=
  (∀ font program : List Byte, font.length ≤ 80 → program.length ≤ 3583 →
    ∃ t, launch font program = .ok t ∧ t.Inv) ∧
  (∀ (s : State) (k : KeyIdx) (p : Bool), s.Inv → (s.keyEvent k p).Inv ∧ s.ackDraw.Inv ∧ s.halt.Inv) ∧
  (∀ (b c : Block) (op : BoundaryOp), b.machine.Inv → b.perform op = some c → c.machine.Inv)
end

