-- ==== Sys2Proof/Laws/Decode.lean ====
section
/-! SUPPORT. The words the encoder builds as numbers, their fields, their dispatch masks, and a word put together again
from its fields. -/

namespace Sys2Proof

section Built
variable (t : Nibble) (x : RegIdx) (y n : Nibble) (kk : Byte) (nnn : Addr12) (w : Word)

theorem toNat_wordXKK : (wordXKK t x kk).toNat = t.toNat * 4096 + x.val * 256 + kk.toNat := by
  have hx : (BitVec.ofFin x : BitVec 4).toNat = x.val := rfl
  simp only [wordXKK, BitVec.toNat_append]
  rw [← Nat.shiftLeft_add_eq_or_of_lt kk.isLt, ← Nat.shiftLeft_add_eq_or_of_lt (BitVec.isLt _), hx]
  simp only [Nat.shiftLeft_eq]
  omega

theorem toNat_wordXYN : (wordXYN t x y n).toNat = t.toNat * 4096 + x.val * 256 + y.toNat * 16 + n.toNat := by
  have hx : (BitVec.ofFin x : BitVec 4).toNat = x.val := rfl
  simp only [wordXYN, BitVec.toNat_append]
  rw [← Nat.shiftLeft_add_eq_or_of_lt n.isLt, ← Nat.shiftLeft_add_eq_or_of_lt y.isLt,
    ← Nat.shiftLeft_add_eq_or_of_lt (BitVec.isLt _), hx]
  simp only [Nat.shiftLeft_eq]
  omega

theorem toNat_wordNNN : (wordNNN t nnn).toNat = t.toNat * 4096 + nnn.toNat := by
  simp only [wordNNN, BitVec.toNat_append]
  rw [← Nat.shiftLeft_add_eq_or_of_lt nnn.isLt]
  simp only [Nat.shiftLeft_eq]

theorem toNat_wordOfBytes (high low : Byte) : (wordOfBytes high low).toNat = high.toNat * 256 + low.toNat := by
  simp only [wordOfBytes, BitVec.toNat_append]
  rw [← Nat.shiftLeft_add_eq_or_of_lt low.isLt, Nat.shiftLeft_eq]

theorem toNat_fieldT : (fieldT w).toNat = w.toNat / 4096 := by
  have := w.isLt
  simp only [fieldT, BitVec.extractLsb'_toNat, Nat.shiftRight_eq_div_pow]
  omega

theorem val_fieldX : (fieldX w).val = w.toNat / 256 % 16 := by
  show (w.extractLsb' 8 4).toNat = _
  simp only [BitVec.extractLsb'_toNat, Nat.shiftRight_eq_div_pow]

theorem val_fieldY : (fieldY w).val = w.toNat / 16 % 16 := by
  show (w.extractLsb' 4 4).toNat = _
  simp only [BitVec.extractLsb'_toNat, Nat.shiftRight_eq_div_pow]

theorem toNat_fieldYBits : (fieldYBits w).toNat = w.toNat / 16 % 16 := by
  simp only [fieldYBits, BitVec.extractLsb'_toNat, Nat.shiftRight_eq_div_pow]

theorem toNat_fieldN : (fieldN w).toNat = w.toNat % 16 := by
  simp [fieldN, BitVec.extractLsb'_toNat]

theorem toNat_fieldKK : (fieldKK w).toNat = w.toNat % 256 := by
  simp [fieldKK, BitVec.extractLsb'_toNat]

theorem toNat_fieldNNN : (fieldNNN w).toNat = w.toNat % 4096 := by
  simp [fieldNNN, BitVec.extractLsb'_toNat]

theorem toNat_highByte : (highByte w).toNat = w.toNat / 256 := by
  have := w.isLt
  simp only [highByte, BitVec.extractLsb'_toNat, Nat.shiftRight_eq_div_pow]
  omega

theorem toNat_lowByte : (lowByte w).toNat = w.toNat % 256 := by
  simp [lowByte, BitVec.extractLsb'_toNat]

theorem toNat_regBits (r : RegIdx) : (regBits r).toNat = r.val := rfl

/-- A register number as bits, in both spellings. -/
theorem ofNat_val_regIdx (r : RegIdx) : BitVec.ofNat 4 r.val = (BitVec.ofFin r : BitVec 4) := by
  apply BitVec.eq_of_toNat_eq
  have : (BitVec.ofFin r : BitVec 4).toNat = r.val := rfl
  rw [BitVec.toNat_ofNat, this]
  omega

/-- A word is its four nibbles (30_encoding R71). -/
theorem word_eq_nibbles : wordXYN (fieldT w) (fieldX w) (fieldYBits w) (fieldN w) = w := by
  apply BitVec.eq_of_toNat_eq
  rw [toNat_wordXYN, toNat_fieldT, val_fieldX, toNat_fieldYBits, toNat_fieldN]
  omega

/-- A word is its two bytes (20_memory R52). -/
@[simp] theorem word_eq_bytes : wordOfBytes (highByte w) (lowByte w) = w := by
  apply BitVec.eq_of_toNat_eq
  rw [toNat_wordOfBytes, toNat_highByte, toNat_lowByte]
  omega

/-- A `t x kk` word is a `t x y n` word. -/
theorem wordXKK_eq_wordXYN :
    wordXKK t x kk = wordXYN t x (kk.extractLsb' 4 4) (kk.extractLsb' 0 4) := by
  apply BitVec.eq_of_toNat_eq
  have := kk.isLt
  simp only [toNat_wordXKK, toNat_wordXYN, BitVec.extractLsb'_toNat, Nat.shiftRight_eq_div_pow]
  omega

/-- A `t nnn` word is a `t x y n` word. -/
theorem wordNNN_eq_wordXYN :
    wordNNN t nnn = wordXYN t (nnn.extractLsb' 8 4).toFin (nnn.extractLsb' 4 4) (nnn.extractLsb' 0 4) := by
  apply BitVec.eq_of_toNat_eq
  have := nnn.isLt
  have hx : ((nnn.extractLsb' 8 4).toFin : Nat) = nnn.toNat / 256 % 16 := by
    show (nnn.extractLsb' 8 4).toNat = _
    simp only [BitVec.extractLsb'_toNat, Nat.shiftRight_eq_div_pow]
  simp only [toNat_wordNNN, toNat_wordXYN, BitVec.extractLsb'_toNat, Nat.shiftRight_eq_div_pow, hx]
  omega

@[simp] theorem fieldT_wordXYN : fieldT (wordXYN t x y n) = t := by
  apply BitVec.eq_of_toNat_eq; rw [toNat_fieldT, toNat_wordXYN]; omega

@[simp] theorem fieldX_wordXYN : fieldX (wordXYN t x y n) = x := by
  apply Fin.ext; rw [val_fieldX, toNat_wordXYN]; omega

@[simp] theorem fieldYBits_wordXYN : fieldYBits (wordXYN t x y n) = y := by
  apply BitVec.eq_of_toNat_eq; rw [toNat_fieldYBits, toNat_wordXYN]; omega

@[simp] theorem fieldY_wordXYN (r : RegIdx) : fieldY (wordXYN t x (regBits r) n) = r := by
  apply Fin.ext; rw [val_fieldY, toNat_wordXYN, toNat_regBits]; omega

@[simp] theorem fieldN_wordXYN : fieldN (wordXYN t x y n) = n := by
  apply BitVec.eq_of_toNat_eq; rw [toNat_fieldN, toNat_wordXYN]; omega

@[simp] theorem fieldT_wordXKK : fieldT (wordXKK t x kk) = t := by
  apply BitVec.eq_of_toNat_eq; rw [toNat_fieldT, toNat_wordXKK]; omega

@[simp] theorem fieldX_wordXKK : fieldX (wordXKK t x kk) = x := by
  apply Fin.ext; rw [val_fieldX, toNat_wordXKK]; omega

@[simp] theorem fieldKK_wordXKK : fieldKK (wordXKK t x kk) = kk := by
  apply BitVec.eq_of_toNat_eq; rw [toNat_fieldKK, toNat_wordXKK]; omega

@[simp] theorem fieldT_wordNNN : fieldT (wordNNN t nnn) = t := by
  apply BitVec.eq_of_toNat_eq; rw [toNat_fieldT, toNat_wordNNN]; omega

@[simp] theorem fieldNNN_wordNNN : fieldNNN (wordNNN t nnn) = nnn := by
  apply BitVec.eq_of_toNat_eq; rw [toNat_fieldNNN, toNat_wordNNN]; omega

/-- A mask written nibble by nibble works nibble by nibble. -/
theorem wordXYN_and (a b c d : Nibble) :
    wordXYN t x y n &&& (a ++ b ++ c ++ d : BitVec (4 + 4 + 4 + 4)) =
      ((t &&& a) ++ ((BitVec.ofFin x : BitVec 4) &&& b) ++ (y &&& c) ++ (n &&& d) : BitVec (4 + 4 + 4 + 4)) := by
  show ((t ++ (BitVec.ofFin x : BitVec 4) ++ y ++ n : BitVec (4 + 4 + 4 + 4)) &&& (a ++ b ++ c ++ d)) = _
  rw [BitVec.and_append, BitVec.and_append, BitVec.and_append]

theorem nibble_and_ones (z : Nibble) : z &&& 0xF#4 = z := by revert z; decide

theorem nibble_and_zero (z : Nibble) : z &&& 0#4 = 0#4 := by revert z; decide

/-- The key of a single-nibble family: the top nibble alone (30_encoding R74). -/
theorem dispatchId_single (h : dispatchMask t = 0xF000#16) :
    dispatchId (wordXYN t x y n) = wordXYN t 0 0#4 0#4 := by
  have hm := wordXYN_and t x y n 0xF#4 0#4 0#4 0#4
  simp only [nibble_and_ones, nibble_and_zero] at hm
  rw [dispatchId, fieldT_wordXYN, h]
  exact hm

/-- The key of families 8 and 9: the outer nibbles (30_encoding R74). -/
theorem dispatchId_alu (h : dispatchMask t = 0xF00F#16) :
    dispatchId (wordXYN t x y n) = wordXYN t 0 0#4 n := by
  have hm := wordXYN_and t x y n 0xF#4 0#4 0#4 0xF#4
  simp only [nibble_and_ones, nibble_and_zero] at hm
  rw [dispatchId, fieldT_wordXYN, h]
  exact hm

/-- The key of families E and F: all but `x` (30_encoding R74). -/
theorem dispatchId_upper (h : dispatchMask t = 0xF0FF#16) :
    dispatchId (wordXKK t x kk) = wordXKK t 0 kk := by
  have hm := wordXYN_and t x (kk.extractLsb' 4 4) (kk.extractLsb' 0 4) 0xF#4 0#4 0xF#4 0xF#4
  simp only [nibble_and_ones, nibble_and_zero] at hm
  rw [dispatchId, fieldT_wordXKK, h, wordXKK_eq_wordXYN, wordXKK_eq_wordXYN]
  exact hm

/-- The key of a single-nibble family, for a `t x kk` word. -/
theorem dispatchId_singleXKK (h : dispatchMask t = 0xF000#16) :
    dispatchId (wordXKK t x kk) = wordXYN t 0 0#4 0#4 := by
  rw [wordXKK_eq_wordXYN, dispatchId_single _ _ _ _ h]

/-- The key of a single-nibble family, for a `t nnn` word. -/
theorem dispatchId_singleNNN (h : dispatchMask t = 0xF000#16) :
    dispatchId (wordNNN t nnn) = wordXYN t 0 0#4 0#4 := by
  rw [wordNNN_eq_wordXYN, dispatchId_single _ _ _ _ h]

end Built

end Sys2Proof
end

