-- ==== Sys2Proof/Laws/Memory.lean ====
section
/-! SUPPORT. The laws of memory: a read after a write, a write that leaves every other address alone, the canonical form
kept by every operation, and equal reads of canonical memories as equal data. -/

namespace Sys2Proof.Machine

variable (m : Memory)

@[simp] theorem Memory.read_nil (a : Nat) : Memory.read [] a = 0#8 := rfl

theorem Memory.read_cons (c : Host.Cell) (a : Nat) :
    Memory.read (c :: m) a = if c.1 = a then c.2 else Memory.read m a := rfl

theorem Memory.read_drop (a k : Nat) : (m.drop a).read k = if a = k then 0#8 else m.read k := by
  induction m with
  | nil => simp [Memory.drop]
  | cons c m ih =>
    simp only [Memory.drop, List.filter_cons] at ih ⊢
    by_cases h : c.1 = a
    · subst h
      rw [if_neg (by simp), ih, Memory.read_cons]
      split <;> rfl
    · rw [if_pos (by simpa using h), Memory.read_cons, Memory.read_cons, ih]
      by_cases h2 : c.1 = k
      · rw [if_pos h2, if_neg (by omega), if_pos h2]
      · rw [if_neg h2, if_neg h2]

theorem Memory.read_place_of_absent {a : Nat} (b : Byte) (h : ∀ c ∈ m, c.1 ≠ a) (k : Nat) :
    (m.place a b).read k = if a = k then b else m.read k := by
  induction m with
  | nil => simp [Memory.place, Memory.read_cons]
  | cons c m ih =>
    have hc : c.1 ≠ a := h c (by simp)
    have ih := ih fun d hd => h d (by simp [hd])
    simp only [Memory.place]
    split
    · simp [Memory.read_cons]
    · by_cases h2 : c.1 = k
      · have h3 : a ≠ k := by omega
        simp [Memory.read_cons, h2, h3]
      · simp [Memory.read_cons, h2, ih]

theorem Memory.drop_absent (a : Nat) : ∀ c ∈ m.drop a, c.1 ≠ a := by
  simp [Memory.drop]

/-- Read after write (20_memory R56, R60). -/
theorem Memory.read_write (a k : Nat) (b : Byte) : (m.write a b).read k = if a = k then b else m.read k := by
  unfold Memory.write
  split
  · rename_i h
    simp [Memory.read_drop, h, unlistedByte]
  · rw [Memory.read_place_of_absent _ _ (Memory.drop_absent m a), Memory.read_drop]
    split <;> rfl

@[simp] theorem Memory.read_write_self (a : Nat) (b : Byte) : (m.write a b).read a = b := by
  simp [Memory.read_write]

theorem Memory.read_write_of_ne {a k : Nat} (b : Byte) (h : a ≠ k) : (m.write a b).read k = m.read k := by
  simp [Memory.read_write, h]

@[simp] theorem Memory.length_readBytes (base len : Nat) : (m.readBytes base len).length = len := by
  induction len generalizing base with
  | zero => rfl
  | succ n ih => simp [Memory.readBytes, ih]

theorem Memory.getElem_readBytes (base len k : Nat) (h : k < (m.readBytes base len).length) :
    (m.readBytes base len)[k] = m.read (base + k) := by
  induction len generalizing base k with
  | zero => simp [Memory.readBytes] at h
  | succ n ih =>
    cases k with
    | zero => simp [Memory.readBytes]
    | succ k =>
      simp only [Memory.readBytes, List.getElem_cons_succ, ih]
      congr 1; omega

/-- A block write outside its range leaves a byte alone, and inside it stores the byte of the list. -/
theorem Memory.read_writeBytes (base k : Nat) (bs : List Byte) :
    (m.writeBytes base bs).read k =
      if h : base ≤ k ∧ k - base < bs.length then bs[k - base] else m.read k := by
  induction bs generalizing m base with
  | nil => simp [Memory.writeBytes]
  | cons b bs ih =>
    simp only [Memory.writeBytes, ih, List.length_cons]
    by_cases h1 : base + 1 ≤ k ∧ k - (base + 1) < bs.length
    · have h2 : base ≤ k ∧ k - base < bs.length + 1 := by omega
      have h3 : k - base = (k - (base + 1)) + 1 := by omega
      rw [dif_pos h1, dif_pos h2]
      simp only [h3, List.getElem_cons_succ]
    · by_cases h2 : base ≤ k ∧ k - base < bs.length + 1
      · have h3 : base = k := by omega
        subst h3
        simp
      · rw [dif_neg h1, dif_neg h2, Memory.read_write_of_ne _ _ (by omega)]

/-- The canonical form, in the terms the proofs use. -/
theorem Memory.wf_iff :
    m.wf = true ↔ (m.Pairwise fun c d => c.1 < d.1) ∧ ∀ c ∈ m, c.1 < 4096 ∧ c.2 ≠ 0#8 := by
  simp only [Memory.wf, Bool.and_eq_true, decide_eq_true_eq, List.all_eq_true]
  exact Iff.rfl

@[simp] theorem Memory.wf_nil : Memory.wf [] = true := by decide

theorem Memory.wf_drop {m : Memory} (h : m.wf = true) (a : Nat) : (m.drop a).wf = true := by
  rw [Memory.wf_iff] at h ⊢
  exact ⟨h.1.filter _, fun c hc => h.2 c (List.mem_of_mem_filter hc)⟩

theorem Memory.mem_place (c : Host.Cell) (a : Nat) (b : Byte) : c ∈ m.place a b ↔ c = (a, b) ∨ c ∈ m := by
  induction m with
  | nil => simp [Memory.place]
  | cons d m ih =>
    simp only [Memory.place]
    split
    · simp
    · simp only [List.mem_cons, ih]; tauto

theorem Memory.wf_place {m : Memory} (h : m.wf = true) {a : Nat} {b : Byte} (ha : a < 4096) (hb : b ≠ 0#8)
    (habs : ∀ c ∈ m, c.1 ≠ a) : (m.place a b).wf = true := by
  rw [Memory.wf_iff] at h ⊢
  refine ⟨?_, fun c hc => ?_⟩
  · induction m with
    | nil => simp [Memory.place]
    | cons d m ih =>
      have hd := habs d (by simp)
      have hp := List.pairwise_cons.1 h.1
      have ih := ih ⟨hp.2, fun c hc => h.2 c (by simp [hc])⟩ fun c hc => habs c (by simp [hc])
      simp only [Memory.place]
      split
      · rename_i hlt
        refine List.pairwise_cons.2 ⟨fun c hc => ?_, h.1⟩
        rcases List.mem_cons.1 hc with rfl | hc
        · exact hlt
        · exact Nat.lt_trans hlt (hp.1 c hc)
      · refine List.pairwise_cons.2 ⟨fun c hc => ?_, ih⟩
        rcases (Memory.mem_place m c a b).1 hc with rfl | hc
        · show d.1 < a
          omega
        · exact hp.1 c hc
  · rcases (Memory.mem_place m c a b).1 hc with rfl | hc
    · exact ⟨ha, hb⟩
    · exact h.2 c hc

/-- A write inside memory keeps the canonical form. -/
theorem Memory.wf_write {m : Memory} (h : m.wf = true) {a : Nat} (b : Byte) (ha : a ≤ 0xFFF) :
    (m.write a b).wf = true := by
  unfold Memory.write
  split
  · exact Memory.wf_drop h a
  · rename_i hb
    exact Memory.wf_place (Memory.wf_drop h a) (by omega) hb (Memory.drop_absent m a)

/-- A block write inside memory keeps the canonical form. -/
theorem Memory.wf_writeBytes {m : Memory} (h : m.wf = true) {base : Nat} (bs : List Byte)
    (hb : bs.length = 0 ∨ base + (bs.length - 1) ≤ 0xFFF) : (m.writeBytes base bs).wf = true := by
  induction bs generalizing m base with
  | nil => exact h
  | cons b bs ih =>
    simp only [List.length_cons] at hb
    exact ih (Memory.wf_write h b (by omega)) (by omega)

theorem Memory.read_of_mem {m : Memory} (h : m.wf = true) {c : Host.Cell} (hc : c ∈ m) : m.read c.1 = c.2 := by
  rw [Memory.wf_iff] at h
  induction m with
  | nil => simp at hc
  | cons d m ih =>
    have hp := List.pairwise_cons.1 h.1
    rcases List.mem_cons.1 hc with rfl | hc
    · simp [Memory.read_cons]
    · have hlt := hp.1 c hc
      have hne : d.1 ≠ c.1 := by omega
      simp only [Memory.read_cons, hne, if_false]
      exact ih ⟨hp.2, fun e he => h.2 e (by simp [he])⟩ hc

theorem Memory.mem_of_read {a : Nat} (h : m.read a ≠ 0#8) : (a, m.read a) ∈ m := by
  induction m with
  | nil => simp at h
  | cons d m ih =>
    simp only [Memory.read_cons] at h ⊢
    split
    · rename_i hd
      subst hd
      simp
    · rename_i hd
      simp only [hd, if_false] at h
      exact List.mem_cons_of_mem _ (ih h)

/-- Canonical memories that read alike are equal data. -/
theorem Memory.ext_of_wf {m n : Memory} (hm : m.wf = true) (hn : n.wf = true) (h : ∀ a, m.read a = n.read a) :
    m = n := by
  have key : ∀ {p q : Memory}, p.wf = true → q.wf = true → (∀ a, p.read a = q.read a) → ∀ c ∈ p, c ∈ q := by
    intro p q hp hq hpq c hc
    have h1 := Memory.read_of_mem hp hc
    have h2 := ((Memory.wf_iff p).1 hp).2 c hc
    have h3 : q.read c.1 = c.2 := by rw [← hpq, h1]
    have h4 := Memory.mem_of_read q (a := c.1) (by rw [h3]; exact h2.2)
    rw [h3] at h4
    exact h4
  have hpm := ((Memory.wf_iff m).1 hm).1
  have hpn := ((Memory.wf_iff n).1 hn).1
  have sub1 := key hm hn h
  have sub2 := key hn hm fun a => (h a).symm
  refine List.Perm.eq_of_pairwise (le := fun c d : Host.Cell => c.1 < d.1) ?_ hpm hpn ?_
  · intro c d _ _ h1 h2
    omega
  · refine (List.perm_ext_iff_of_nodup ?_ ?_).2 fun c => ⟨sub1 c, sub2 c⟩
    · exact hpm.imp fun {c d} hlt heq => by subst heq; omega
    · exact hpn.imp fun {c d} hlt heq => by subst heq; omega

end Sys2Proof.Machine
end

