-- ==== Sys2Proof/Laws/State.lean ====
section
/-! SUPPORT. One lemma per field per update of the state, each true by rfl, so that no later proof unfolds a record
update; and how the accessors read through them. -/

namespace Sys2Proof.Machine

variable (s : State)

@[simp] theorem State.setReg_mem (x : RegIdx) (b : Byte) : (s.setReg x b).mem = s.mem := rfl
@[simp] theorem State.setReg_v (x : RegIdx) (b : Byte) : (s.setReg x b).v = s.v.set x.val b := rfl
@[simp] theorem State.setReg_i (x : RegIdx) (b : Byte) : (s.setReg x b).i = s.i := rfl
@[simp] theorem State.setReg_pc (x : RegIdx) (b : Byte) : (s.setReg x b).pc = s.pc := rfl
@[simp] theorem State.setReg_stack (x : RegIdx) (b : Byte) : (s.setReg x b).stack = s.stack := rfl
@[simp] theorem State.setReg_sp (x : RegIdx) (b : Byte) : (s.setReg x b).sp = s.sp := rfl
@[simp] theorem State.setReg_dt (x : RegIdx) (b : Byte) : (s.setReg x b).dt = s.dt := rfl
@[simp] theorem State.setReg_st (x : RegIdx) (b : Byte) : (s.setReg x b).st = s.st := rfl
@[simp] theorem State.setReg_key (x : RegIdx) (b : Byte) : (s.setReg x b).key = s.key := rfl
@[simp] theorem State.setReg_fb (x : RegIdx) (b : Byte) : (s.setReg x b).fb = s.fb := rfl
@[simp] theorem State.setReg_mustDraw (x : RegIdx) (b : Byte) : (s.setReg x b).mustDraw = s.mustDraw := rfl
@[simp] theorem State.setReg_halted (x : RegIdx) (b : Byte) : (s.setReg x b).halted = s.halted := rfl
@[simp] theorem State.setReg_fault (x : RegIdx) (b : Byte) : (s.setReg x b).fault = s.fault := rfl
@[simp] theorem State.setReg_drawIndex (x : RegIdx) (b : Byte) : (s.setReg x b).drawIndex = s.drawIndex := rfl

@[simp] theorem State.setKeyLine_mem (k : KeyIdx) (b : Bool) : (s.setKeyLine k b).mem = s.mem := rfl
@[simp] theorem State.setKeyLine_v (k : KeyIdx) (b : Bool) : (s.setKeyLine k b).v = s.v := rfl
@[simp] theorem State.setKeyLine_i (k : KeyIdx) (b : Bool) : (s.setKeyLine k b).i = s.i := rfl
@[simp] theorem State.setKeyLine_pc (k : KeyIdx) (b : Bool) : (s.setKeyLine k b).pc = s.pc := rfl
@[simp] theorem State.setKeyLine_stack (k : KeyIdx) (b : Bool) : (s.setKeyLine k b).stack = s.stack := rfl
@[simp] theorem State.setKeyLine_sp (k : KeyIdx) (b : Bool) : (s.setKeyLine k b).sp = s.sp := rfl
@[simp] theorem State.setKeyLine_dt (k : KeyIdx) (b : Bool) : (s.setKeyLine k b).dt = s.dt := rfl
@[simp] theorem State.setKeyLine_st (k : KeyIdx) (b : Bool) : (s.setKeyLine k b).st = s.st := rfl
@[simp] theorem State.setKeyLine_key (k : KeyIdx) (b : Bool) : (s.setKeyLine k b).key = s.key.set k.val b := rfl
@[simp] theorem State.setKeyLine_fb (k : KeyIdx) (b : Bool) : (s.setKeyLine k b).fb = s.fb := rfl
@[simp] theorem State.setKeyLine_mustDraw (k : KeyIdx) (b : Bool) : (s.setKeyLine k b).mustDraw = s.mustDraw := rfl
@[simp] theorem State.setKeyLine_halted (k : KeyIdx) (b : Bool) : (s.setKeyLine k b).halted = s.halted := rfl
@[simp] theorem State.setKeyLine_fault (k : KeyIdx) (b : Bool) : (s.setKeyLine k b).fault = s.fault := rfl
@[simp] theorem State.setKeyLine_drawIndex (k : KeyIdx) (b : Bool) : (s.setKeyLine k b).drawIndex = s.drawIndex := rfl

@[simp] theorem State.advance_mem : (s.advance).mem = s.mem := rfl
@[simp] theorem State.advance_v : (s.advance).v = s.v := rfl
@[simp] theorem State.advance_i : (s.advance).i = s.i := rfl
@[simp] theorem State.advance_pc : (s.advance).pc = s.pc + 2#16 := rfl
@[simp] theorem State.advance_stack : (s.advance).stack = s.stack := rfl
@[simp] theorem State.advance_sp : (s.advance).sp = s.sp := rfl
@[simp] theorem State.advance_dt : (s.advance).dt = s.dt := rfl
@[simp] theorem State.advance_st : (s.advance).st = s.st := rfl
@[simp] theorem State.advance_key : (s.advance).key = s.key := rfl
@[simp] theorem State.advance_fb : (s.advance).fb = s.fb := rfl
@[simp] theorem State.advance_mustDraw : (s.advance).mustDraw = s.mustDraw := rfl
@[simp] theorem State.advance_halted : (s.advance).halted = s.halted := rfl
@[simp] theorem State.advance_fault : (s.advance).fault = s.fault := rfl
@[simp] theorem State.advance_drawIndex : (s.advance).drawIndex = s.drawIndex := rfl

@[simp] theorem State.endCycle_mem : (s.endCycle).mem = s.mem := rfl
@[simp] theorem State.endCycle_v : (s.endCycle).v = s.v := rfl
@[simp] theorem State.endCycle_i : (s.endCycle).i = s.i := rfl
@[simp] theorem State.endCycle_pc : (s.endCycle).pc = s.pc := rfl
@[simp] theorem State.endCycle_stack : (s.endCycle).stack = s.stack := rfl
@[simp] theorem State.endCycle_sp : (s.endCycle).sp = s.sp := rfl
@[simp] theorem State.endCycle_dt : (s.endCycle).dt = decayTimer s.dt := rfl
@[simp] theorem State.endCycle_st : (s.endCycle).st = decayTimer s.st := rfl
@[simp] theorem State.endCycle_key : (s.endCycle).key = s.key := rfl
@[simp] theorem State.endCycle_fb : (s.endCycle).fb = s.fb := rfl
@[simp] theorem State.endCycle_mustDraw : (s.endCycle).mustDraw = s.mustDraw := rfl
@[simp] theorem State.endCycle_halted : (s.endCycle).halted = s.halted := rfl
@[simp] theorem State.endCycle_fault : (s.endCycle).fault = s.fault := rfl
@[simp] theorem State.endCycle_drawIndex : (s.endCycle).drawIndex = s.drawIndex + 1 := rfl

@[simp] theorem State.takeFault_mem (c : FaultCause) (w : Option Word) : (s.takeFault c w).mem = s.mem := rfl
@[simp] theorem State.takeFault_v (c : FaultCause) (w : Option Word) : (s.takeFault c w).v = s.v := rfl
@[simp] theorem State.takeFault_i (c : FaultCause) (w : Option Word) : (s.takeFault c w).i = s.i := rfl
@[simp] theorem State.takeFault_pc (c : FaultCause) (w : Option Word) : (s.takeFault c w).pc = s.pc := rfl
@[simp] theorem State.takeFault_stack (c : FaultCause) (w : Option Word) : (s.takeFault c w).stack = s.stack := rfl
@[simp] theorem State.takeFault_sp (c : FaultCause) (w : Option Word) : (s.takeFault c w).sp = s.sp := rfl
@[simp] theorem State.takeFault_dt (c : FaultCause) (w : Option Word) : (s.takeFault c w).dt = s.dt := rfl
@[simp] theorem State.takeFault_st (c : FaultCause) (w : Option Word) : (s.takeFault c w).st = s.st := rfl
@[simp] theorem State.takeFault_key (c : FaultCause) (w : Option Word) : (s.takeFault c w).key = s.key := rfl
@[simp] theorem State.takeFault_fb (c : FaultCause) (w : Option Word) : (s.takeFault c w).fb = s.fb := rfl
@[simp] theorem State.takeFault_mustDraw (c : FaultCause) (w : Option Word) : (s.takeFault c w).mustDraw = s.mustDraw := rfl
@[simp] theorem State.takeFault_halted (c : FaultCause) (w : Option Word) : (s.takeFault c w).halted = s.halted := rfl
@[simp] theorem State.takeFault_fault (c : FaultCause) (w : Option Word) : (s.takeFault c w).fault = some { cause := c, faultPc := s.pc, word := w } := rfl
@[simp] theorem State.takeFault_drawIndex (c : FaultCause) (w : Option Word) : (s.takeFault c w).drawIndex = s.drawIndex := rfl

theorem State.reg_setReg (x j : RegIdx) (b : Byte) : (s.setReg x b).reg j = if x = j then b else s.reg j := by
  simp only [State.reg, State.setReg, Vector.getElem_set, Fin.ext_iff]

@[simp] theorem State.reg_setReg_self (x : RegIdx) (b : Byte) : (s.setReg x b).reg x = b := by
  simp [State.reg_setReg]

theorem State.reg_setReg_of_ne {x j : RegIdx} (b : Byte) (h : x ≠ j) : (s.setReg x b).reg j = s.reg j := by
  simp [State.reg_setReg, h]

theorem State.keyLine_setKeyLine (k j : KeyIdx) (b : Bool) :
    (s.setKeyLine k b).keyLine j = if k = j then b else s.keyLine j := by
  simp only [State.keyLine, State.setKeyLine, Vector.getElem_set, Fin.ext_iff]

@[simp] theorem State.keyLine_setKeyLine_self (k : KeyIdx) (b : Bool) : (s.setKeyLine k b).keyLine k = b := by
  simp [State.keyLine_setKeyLine]

@[simp] theorem State.keyLine_setReg (x : RegIdx) (b : Byte) (j : KeyIdx) : (s.setReg x b).keyLine j = s.keyLine j := rfl
@[simp] theorem State.stackSlot_setReg (x : RegIdx) (b : Byte) (j : Fin 16) : (s.setReg x b).stackSlot j = s.stackSlot j := rfl
@[simp] theorem State.reg_setKeyLine (k : KeyIdx) (b : Bool) (j : RegIdx) : (s.setKeyLine k b).reg j = s.reg j := rfl
@[simp] theorem State.stackSlot_setKeyLine (k : KeyIdx) (b : Bool) (j : Fin 16) : (s.setKeyLine k b).stackSlot j = s.stackSlot j := rfl
@[simp] theorem State.reg_advance (j : RegIdx) : (s.advance).reg j = s.reg j := rfl
@[simp] theorem State.keyLine_advance (j : KeyIdx) : (s.advance).keyLine j = s.keyLine j := rfl
@[simp] theorem State.stackSlot_advance (j : Fin 16) : (s.advance).stackSlot j = s.stackSlot j := rfl
@[simp] theorem State.reg_endCycle (j : RegIdx) : (s.endCycle).reg j = s.reg j := rfl
@[simp] theorem State.keyLine_endCycle (j : KeyIdx) : (s.endCycle).keyLine j = s.keyLine j := rfl
@[simp] theorem State.stackSlot_endCycle (j : Fin 16) : (s.endCycle).stackSlot j = s.stackSlot j := rfl
@[simp] theorem State.reg_takeFault (c : FaultCause) (w : Option Word) (j : RegIdx) : (s.takeFault c w).reg j = s.reg j := rfl
@[simp] theorem State.keyLine_takeFault (c : FaultCause) (w : Option Word) (j : KeyIdx) : (s.takeFault c w).keyLine j = s.keyLine j := rfl
@[simp] theorem State.stackSlot_takeFault (c : FaultCause) (w : Option Word) (j : Fin 16) : (s.takeFault c w).stackSlot j = s.stackSlot j := rfl

end Sys2Proof.Machine
end

