-- ==== Sys2Proof/Laws/Ops.lean ====
section
/-! SUPPORT. For each shared operation, what it can do, said once: the cycle around a handler, the timer decay, the
operand checks, the block loads and stores, the keypad search and the fetch. -/

namespace Sys2Proof.Machine

/-! The cycle around a handler (40_cycle R97). -/

theorem runHandler_ok {w : Word} {h : State → Handled} {s u : State} (hu : h s.advance = .ok u) :
    runHandler w h s = .next u.endCycle := by simp [runHandler, hu]

theorem runHandler_raise {w : Word} {h : State → Handled} {s : State} {c : FaultCause}
    (hc : h s.advance = .raise c) : runHandler w h s = .next (s.takeFault c (some w)) := by simp [runHandler, hc]

/-- Everything a cycle around a handler can answer: the handler's state at the end of the cycle, or its fault taken. -/
theorem runHandler_cases {w : Word} {h : State → Handled} {s t : State} (ht : runHandler w h s = .next t) :
    (∃ u, h s.advance = .ok u ∧ t = u.endCycle) ∨
    (∃ c, h s.advance = .raise c ∧ t = s.takeFault c (some w)) := by
  unfold runHandler at ht
  split at ht
  · exact .inl ⟨_, ‹_›, by injection ht with ht; exact ht.symm⟩
  · exact .inr ⟨_, ‹_›, by injection ht with ht; exact ht.symm⟩

theorem runHandler_next (w : Word) (h : State → Handled) (s : State) : ∃ t, runHandler w h s = .next t := by
  unfold runHandler
  split <;> exact ⟨_, rfl⟩

/-- The handler of an instruction. -/
def handlerOf : Instr → State → Handled
  | .cls => handleCls
  | .ret => handleRet
  | .jp nnn => handleJp nnn
  | .call nnn => handleCall nnn
  | .seImm x kk => handleSeImm x kk
  | .sneImm x kk => handleSneImm x kk
  | .seReg x y _ => handleSeReg x y
  | .sneReg x y => handleSneReg x y
  | .ldImm x kk => handleLdImm x kk
  | .addImm x kk => handleAddImm x kk
  | .ldReg x y => handleLdReg x y
  | .orReg x y => handleOrReg x y
  | .andReg x y => handleAndReg x y
  | .xorReg x y => handleXorReg x y
  | .addReg x y => handleAddReg x y
  | .subReg x y => handleSubReg x y
  | .shr x _ => handleShr x
  | .subnReg x y => handleSubnReg x y
  | .shl x _ => handleShl x
  | .ldI nnn => handleLdI nnn
  | .jpV0 nnn => handleJpV0 nnn
  | .rnd x kk => handleRnd x kk
  | .drw x y n => handleDrw x y n
  | .skp x => handleSkp x
  | .sknp x => handleSknp x
  | .ldVxDt x => handleLdVxDt x
  | .ldDtVx x => handleLdDtVx x
  | .ldStVx x => handleLdStVx x
  | .addI x => handleAddI x
  | .ldF x => handleLdF x
  | .ldB x => handleLdB x
  | .ldMemVx x => handleLdMemVx x
  | .ldVxMem x => handleLdVxMem x
  | .ldVxK x => handleLdVxK x

/-- Every instruction is the cycle around its handler. -/
theorem exec_eq_runHandler (i : Instr) (s : State) : exec i s = runHandler (encode i) (handlerOf i) s := by
  cases i <;> rfl

/-- An instruction whose handler completes. -/
theorem exec_ok {i : Instr} {s u : State} (h : handlerOf i s.advance = .ok u) : exec i s = .next u.endCycle := by
  rw [exec_eq_runHandler, runHandler_ok h]

/-- An instruction whose handler raises a fault. -/
theorem exec_raise {i : Instr} {s : State} {c : FaultCause} (h : handlerOf i s.advance = .raise c) :
    exec i s = .next (s.takeFault c (some (encode i))) := by
  rw [exec_eq_runHandler, runHandler_raise h]

/-- Everything an instruction can answer: its handler's state at the end of the cycle, or the fault it raised, taken. -/
theorem exec_cases {i : Instr} {s t : State} (h : exec i s = .next t) :
    (∃ u, handlerOf i s.advance = .ok u ∧ t = u.endCycle) ∨
    (∃ c, handlerOf i s.advance = .raise c ∧ t = s.takeFault c (some (encode i))) :=
  runHandler_cases (by rw [← exec_eq_runHandler]; exact h)

/-! The timer decay (40_cycle R96). -/

@[simp] theorem toNat_decayTimer (b : Byte) : (decayTimer b).toNat = b.toNat - 1 := by
  have := b.isLt
  unfold decayTimer narrow8
  split
  · rw [BitVec.toNat_ofNat]; omega
  · rw [BitVec.toNat_ofNat]; omega

/-! Narrowed results (42_alu R130). -/

@[simp] theorem toNat_addBytes (a b : Byte) : (addBytes a b).toNat = (a.toNat + b.toNat) % 256 := by
  simp [addBytes, narrow8]

theorem toNat_subBytes (a b : Byte) : ((subBytes a b).toNat : Int) = ((a.toNat : Int) - (b.toNat : Int)) % 256 := by
  simp only [subBytes, narrowInt8, BitVec.toNat_ofInt]
  omega

@[simp] theorem toNat_shrByte (b : Byte) : (shrByte b).toNat = b.toNat / 2 := by
  have := b.isLt
  simp only [shrByte, narrow8, BitVec.toNat_ofNat]
  omega

@[simp] theorem toNat_shlByte (b : Byte) : (shlByte b).toNat = b.toNat * 2 % 256 := by
  simp [shlByte, narrow8]

@[simp] theorem toNat_flagByte (c : Bool) : (flagByte c).toNat = if c then 1 else 0 := by
  cases c <;> rfl

theorem toNat_shrFlag (b : Byte) : (shrFlag b).toNat = b.toNat % 2 := by revert b; decide

theorem toNat_shlFlag (b : Byte) : (shlFlag b).toNat = b.toNat / 128 := by revert b; decide

theorem flagThenResult_reg (t : State) (f : Byte) (x j : RegIdx) (res : State → Byte) :
    (flagThenResult t f x res).reg j =
      if x = j then res (t.setReg vf f) else if vf = j then f else t.reg j := by
  simp only [flagThenResult, State.reg_setReg]

/-! The memory block (20_memory R55). -/

theorem rangeInMemory_iff (base len : Nat) : rangeInMemory base len = true ↔ len = 0 ∨ base + (len - 1) ≤ 0xFFF := by
  rw [rangeInMemory, decide_eq_true_iff, Config.lastAddr]

theorem withBlock_ok {t : State} {len : Nat} (e : State) (h : BlockInMemory t len) : withBlock t len e = .ok e := by
  rw [withBlock, if_pos ((rangeInMemory_iff _ _).2 h)]

theorem withBlock_raise {t : State} {len : Nat} (e : State) (h : ¬ BlockInMemory t len) :
    withBlock t len e = .raise .memoryBounds := by
  rw [withBlock, if_neg fun hr => h ((rangeInMemory_iff _ _).1 hr)]

/-- Everything the block check can answer. -/
theorem withBlock_cases (t : State) (len : Nat) (e : State) :
    (BlockInMemory t len ∧ withBlock t len e = .ok e) ∨
    (¬ BlockInMemory t len ∧ withBlock t len e = .raise .memoryBounds) := by
  by_cases h : BlockInMemory t len
  · exact .inl ⟨h, withBlock_ok e h⟩
  · exact .inr ⟨h, withBlock_raise e h⟩

/-! The keypad operand (45_timers_keypad R190). -/

theorem withKey_ok {t : State} {x : RegIdx} {k : KeyIdx} (h : (t.reg x).toNat = k.val) (e : KeyIdx → State) :
    withKey t x e = .ok (e k) := by
  have hk : keyOperand t x = some k := by
    rw [keyOperand, dif_pos (h ▸ k.isLt)]
    exact congrArg some (Fin.ext h)
  simp [withKey, hk]

theorem withKey_raise {t : State} {x : RegIdx} (h : 15 < (t.reg x).toNat) (e : KeyIdx → State) :
    withKey t x e = .raise .keyIndexRange := by
  have hk : keyOperand t x = none := by rw [keyOperand, dif_neg (by omega)]
  simp [withKey, hk]

/-- Everything the key operand can answer. -/
theorem withKey_cases (t : State) (x : RegIdx) (e : KeyIdx → State) :
    (∃ k : KeyIdx, (t.reg x).toNat = k.val ∧ withKey t x e = .ok (e k)) ∨
    (15 < (t.reg x).toNat ∧ withKey t x e = .raise .keyIndexRange) := by
  by_cases h : (t.reg x).toNat < 16
  · exact .inl ⟨⟨_, h⟩, rfl, withKey_ok (k := ⟨_, h⟩) rfl e⟩
  · exact .inr ⟨by omega, withKey_raise (by omega) e⟩

/-! The keypad search (45_timers_keypad R197). -/

theorem lowestPressed_eq_none (s : State) : s.lowestPressed = none ↔ ∀ k, s.keyLine k = false := by
  simp [State.lowestPressed]

theorem lowestPressed_eq_some (s : State) (k : KeyIdx) :
    s.lowestPressed = some k ↔ s.keyLine k = true ∧ ∀ j, j < k → s.keyLine j = false := by
  rw [State.lowestPressed, List.find?_eq_some_iff_getElem]
  simp only [List.getElem_finRange, List.length_finRange, Bool.not_eq_true']
  constructor
  · rintro ⟨hk, i, hi, he, hl⟩
    subst he
    refine ⟨hk, fun j hj => ?_⟩
    exact hl j.val hj
  · rintro ⟨hk, hl⟩
    exact ⟨hk, k.val, k.isLt, rfl, fun j hj => hl ⟨j, by omega⟩ hj⟩

/-! Register blocks (43_index_memory R155, R156). -/

theorem setRegs_frame (bs : List Byte) (t : State) (k : Nat) : ∃ v, t.setRegs k bs = { t with v := v } := by
  induction bs generalizing t k with
  | nil => exact ⟨t.v, rfl⟩
  | cons b bs ih =>
    obtain ⟨v, hv⟩ := ih (t.setReg (Fin.ofNat 16 k) b) (k + 1)
    exact ⟨v, hv⟩

theorem setRegs_reg (bs : List Byte) (t : State) (k : Nat) (hk : k + bs.length ≤ 16) (j : RegIdx) :
    (t.setRegs k bs).reg j =
      if h : k ≤ j.val ∧ j.val - k < bs.length then bs[j.val - k] else t.reg j := by
  induction bs generalizing t k with
  | nil => simp [State.setRegs]
  | cons b bs ih =>
    simp only [List.length_cons] at hk ⊢
    rw [State.setRegs, ih _ _ (by omega), State.reg_setReg]
    by_cases h1 : k + 1 ≤ j.val ∧ j.val - (k + 1) < bs.length
    · have h3 : j.val - k = (j.val - (k + 1)) + 1 := by omega
      rw [dif_pos h1, dif_pos (by omega)]
      simp only [h3, List.getElem_cons_succ]
    · by_cases h2 : k ≤ j.val ∧ j.val - k < bs.length + 1
      · have h3 : k = j.val := by omega
        rw [dif_neg h1, dif_pos h2, if_pos]
        · simp [h3]
        · apply Fin.ext; simp only [Fin.ofNat]; omega
      · rw [dif_neg h1, dif_neg h2, if_neg]
        intro h
        have := congrArg Fin.val h
        simp only [Fin.ofNat] at this
        omega

theorem length_regsUpTo (t : State) (x : RegIdx) : (t.regsUpTo x).length = x.val + 1 := by
  simp [State.regsUpTo]

theorem getElem_regsUpTo (t : State) (x : RegIdx) (k : Nat) (h : k < (t.regsUpTo x).length) :
    (t.regsUpTo x)[k] = t.reg ⟨k, by rw [length_regsUpTo] at h; omega⟩ := by
  simp [State.regsUpTo, State.reg]

theorem length_bcdDigits (b : Byte) : (bcdDigits b).length = 3 := rfl

/-! The fetch (40_cycle R91, R92). -/

theorem fetch_eq_none (s : State) : s.fetch = none ↔ 0xFFE < s.pc.toNat := by
  unfold State.fetch Config.lastAddr
  split
  · simp; omega
  · simp; omega

theorem fetch_eq_some (s : State) (w : Word) :
    s.fetch = some w ↔ s.pc.toNat ≤ 0xFFE ∧
      w.toNat = (s.mem.read s.pc.toNat).toNat * 256 + (s.mem.read (s.pc.toNat + 1)).toNat := by
  unfold State.fetch Config.lastAddr
  split
  · simp; omega
  · rw [← toNat_wordOfBytes, Option.some.injEq, ← BitVec.toNat_inj]
    constructor
    · intro h; exact ⟨by omega, h.symm⟩
    · intro h; exact h.2.symm

/-- The run state of a machine that can take a step (40_cycle R90). -/
theorem runState_eq_running (s : State) : s.runState = .running ↔ s.halted = false ∧ s.fault = none := by
  unfold State.runState
  cases s.fault <;> cases s.halted <;> simp

/-- A step of a running machine whose fetch succeeds. -/
theorem step_of_fetch {s : State} {w : Word} (hr : s.runState = .running) (hf : s.fetch = some w) :
    step s = match decodeWord w with
      | none => execUnassigned w s
      | some i => exec i s := by
  unfold step
  rw [hr, hf] <;> rfl

/-- Everything a step that has a successor can be: a fetch fault, the no-op of an unassigned word, or an instruction. -/
theorem step_cases {s t : State} (h : step s = .next t) :
    (s.halted = false ∧ s.fault = none) ∧
    ((0xFFE < s.pc.toNat ∧ t = s.takeFault .fetchBounds none) ∨
     (∃ w, s.fetch = some w ∧ decodeWord w = none ∧ t = s.advance.endCycle) ∨
     (∃ w i, s.fetch = some w ∧ decodeWord w = some i ∧ exec i s = .next t)) := by
  unfold step at h
  split at h
  · cases h
  · cases h
  · rename_i hr
    refine ⟨(runState_eq_running s).1 hr, ?_⟩
    split at h
    · rename_i hf
      injection h with h
      exact .inl ⟨(fetch_eq_none s).1 hf, h.symm⟩
    · rename_i w hf
      split at h
      · rename_i hd
        injection h with h
        exact .inr (.inl ⟨w, hf, hd, h.symm⟩)
      · rename_i i hd
        exact .inr (.inr ⟨w, i, hf, hd, h⟩)

end Sys2Proof.Machine
end

