-- ==== Sys2Proof/Laws/Boundary.lean ====
section
/-! SUPPORT. What each operation of the host can do, said once: the loads, the events, and the operation as a whole. -/

namespace Sys2Proof.Machine

theorem loadFont_ok (s : State) {font : List Byte} (h : font.length ≤ 80) :
    s.loadFont font = .ok { s with mem := s.mem.writeBytes 0x050 font } := by
  rw [State.loadFont, if_neg (by show ¬ 80 < font.length; omega), Config.fontBase]

theorem loadFont_error (s : State) {font : List Byte} (h : 80 < font.length) : s.loadFont font = .error .fontTooLarge := by
  rw [State.loadFont, if_pos (by exact h)]

theorem loadProgram_ok (s : State) {program : List Byte} (h : program.length ≤ 3583) :
    s.loadProgram program = .ok { s with mem := s.mem.writeBytes 0x200 program } := by
  rw [State.loadProgram, if_neg (by show ¬ 3583 < program.length; omega), Config.progBase]

theorem loadProgram_error (s : State) {program : List Byte} (h : 3583 < program.length) :
    s.loadProgram program = .error .programTooLarge := by
  rw [State.loadProgram, if_pos (by exact h)]

/-- What a load writes keeps memory canonical. -/
theorem wf_loadFont {s t : State} {font : List Byte} (h : s.loadFont font = .ok t) (hm : s.mem.wf = true) :
    t.mem.wf = true ∧ t = { s with mem := t.mem } := by
  by_cases hl : font.length ≤ 80
  · rw [loadFont_ok s hl] at h
    injection h with h
    subst h
    exact ⟨Memory.wf_writeBytes hm _ (by omega), rfl⟩
  · rw [loadFont_error s (by omega)] at h
    cases h

theorem wf_loadProgram {s t : State} {program : List Byte} (h : s.loadProgram program = .ok t) (hm : s.mem.wf = true) :
    t.mem.wf = true ∧ t = { s with mem := t.mem } := by
  by_cases hl : program.length ≤ 3583
  · rw [loadProgram_ok s hl] at h
    injection h with h
    subst h
    exact ⟨Memory.wf_writeBytes hm _ (by omega), rfl⟩
  · rw [loadProgram_error s (by omega)] at h
    cases h

@[simp] theorem keyLine_keyEvent (s : State) (k j : KeyIdx) (p : Bool) :
    (s.keyEvent k p).keyLine j = if k = j then p else s.keyLine j := State.keyLine_setKeyLine s k j p

@[simp] theorem ackDraw_mustDraw (s : State) : s.ackDraw.mustDraw = false := rfl
@[simp] theorem halt_halted (s : State) : s.halt.halted = true := rfl

/-- A running machine has a step. -/
theorem step_of_running {s : State} (hh : s.halted = false) (hf : s.fault = none) : ∃ t, step s = .next t := by
  rw [step, (runState_eq_running s).2 ⟨hh, hf⟩]
  show ∃ t, (match s.fetch with
    | none => _
    | some w => _) = Host.Outcome.next t
  split
  · exact ⟨_, rfl⟩
  · split
    · exact runHandler_next _ _ s
    · rw [exec_eq_runHandler]
      exact runHandler_next _ _ s

/-- Everything an operation of the host can answer: a load that succeeded or failed, a step of the machine, or an event
on it. -/
theorem perform_cases {b c : Block} {op : BoundaryOp} (h : b.perform op = some c) :
    (∃ bytes, op = .loadFont bytes ∧ b.cycled = false ∧
      ((∃ s, b.machine.loadFont bytes = .ok s ∧ c = { b with machine := s, fontLoaded := true }) ∨
       (∃ e, b.machine.loadFont bytes = .error e ∧ c = { b with loadFailed := some e }))) ∨
    (∃ bytes, op = .loadProgram bytes ∧ b.cycled = false ∧
      ((∃ s, b.machine.loadProgram bytes = .ok s ∧ c = { b with machine := s, programLoaded := true }) ∨
       (∃ e, b.machine.loadProgram bytes = .error e ∧ c = { b with loadFailed := some e }))) ∨
    (op = .cycle ∧ b.fontLoaded = true ∧ b.programLoaded = true ∧ b.loadFailed = none ∧
      ∃ s, step b.machine = .next s ∧ c = { b with machine := s, cycled := true }) ∨
    (∃ k p, op = .key k p ∧ c = { b with machine := b.machine.keyEvent k p }) ∨
    (op = .ackDraw ∧ c = { b with machine := b.machine.ackDraw }) ∨
    (op = .halt ∧ c = { b with machine := b.machine.halt }) := by
  cases op with
  | loadFont bytes =>
    simp only [Block.perform] at h
    split at h
    · cases h
    · rename_i hc
      injection h with h
      refine .inl ⟨bytes, rfl, by simpa using hc, ?_⟩
      cases hl : b.machine.loadFont bytes <;> rw [hl] at h
      · exact .inr ⟨_, rfl, h.symm⟩
      · exact .inl ⟨_, rfl, h.symm⟩
  | loadProgram bytes =>
    simp only [Block.perform] at h
    split at h
    · cases h
    · rename_i hc
      injection h with h
      refine .inr (.inl ⟨bytes, rfl, by simpa using hc, ?_⟩)
      cases hl : b.machine.loadProgram bytes <;> rw [hl] at h
      · exact .inr ⟨_, rfl, h.symm⟩
      · exact .inl ⟨_, rfl, h.symm⟩
  | cycle =>
    simp only [Block.perform] at h
    split at h
    · rename_i hl
      simp only [Bool.and_eq_true, Option.isNone_iff_eq_none] at hl
      split at h
      · injection h with h
        exact .inr (.inr (.inl ⟨rfl, hl.1.1, hl.1.2, hl.2, _, ‹_›, h.symm⟩))
      · cases h
    · cases h
  | key k p => exact .inr (.inr (.inr (.inl ⟨k, p, rfl, (Option.some.inj h).symm⟩)))
  | ackDraw => exact .inr (.inr (.inr (.inr (.inl ⟨rfl, (Option.some.inj h).symm⟩))))
  | halt => exact .inr (.inr (.inr (.inr (.inr ⟨rfl, (Option.some.inj h).symm⟩))))

end Sys2Proof.Machine
end

