-- ==== Sys2Proof/Laws/Display.lean ====
section
/-! SUPPORT. What drawing does (44_display R172): a sprite is the list of the cells of its set bits, no cell twice, and
drawing toggles each of them. -/

namespace Sys2Proof.Machine

theorem cell_toggle (f : Framebuffer) (row row' : Fin 32) (col col' : Fin 64) :
    (f.toggle row col).cell row' col' =
      if row = row' ∧ col = col' then !f.cell row col else f.cell row' col' := by
  simp only [Framebuffer.cell, Framebuffer.toggle, Vector.getElem_set, Fin.ext_iff]
  by_cases hr : row.val = row'.val
  · simp only [hr, if_true, true_and, Vector.getElem_set]
  · simp [hr]

@[simp] theorem cell_clear (row : Fin 32) (col : Fin 64) : Framebuffer.clear.cell row col = false := by
  simp [Framebuffer.clear, Framebuffer.cell]

/-- Framebuffers with equal cells are equal data. -/
theorem framebuffer_ext {f g : Framebuffer} (h : ∀ row col, f.cell row col = g.cell row col) : f = g := by
  apply Vector.ext
  intro r hr
  apply Vector.ext
  intro c hc
  exact h ⟨r, hr⟩ ⟨c, hc⟩

/-- A cell of the grid. -/
abbrev Pixel := Fin 32 × Fin 64

/-- The cells of the set bits of one sprite byte (44_display R172, R173). -/
def rowPixels (x0 y : Nat) (b : Byte) : List Pixel :=
  ((List.range 8).filter fun c => b.getLsbD (7 - c)).map fun c => (Fin.ofNat 32 y, Fin.ofNat 64 (x0 + c))

/-- The cells of the set bits of a sprite (44_display R172). -/
def spritePixels (x0 y : Nat) : List Byte → List Pixel
  | [] => []
  | b :: bs => rowPixels x0 y b ++ spritePixels x0 (y + 1) bs

/-- Drawing cells one after the other. -/
def drawPixels (ps : List Pixel) (c : Canvas) : Canvas := ps.foldl (fun c p => drawPixel p.1 p.2 c) c

theorem drawRow_eq_drawPixels (x0 y : Nat) (b : Byte) (c : Canvas) :
    drawRow x0 y b c = drawPixels (rowPixels x0 y b) c := by
  simp only [drawRow, drawPixels, rowPixels, List.foldl_map, List.foldl_filter]

theorem drawRows_eq_drawPixels (x0 : Nat) (bs : List Byte) (y : Nat) (c : Canvas) :
    drawRows x0 y bs c = drawPixels (spritePixels x0 y bs) c := by
  induction bs generalizing y c with
  | nil => rfl
  | cons b bs ih =>
    rw [drawRows, ih, drawRow_eq_drawPixels]
    simp only [drawPixels, spritePixels, List.foldl_append]

/-- Drawing distinct cells toggles exactly those cells. -/
theorem cell_drawPixels {ps : List Pixel} (hn : ps.Nodup) (c : Canvas) (p : Pixel) :
    (drawPixels ps c).1.cell p.1 p.2 = if p ∈ ps then !c.1.cell p.1 p.2 else c.1.cell p.1 p.2 := by
  induction ps generalizing c with
  | nil => simp [drawPixels]
  | cons q ps ih =>
    have hq := List.nodup_cons.1 hn
    have := ih hq.2 (drawPixel q.1 q.2 c)
    simp only [drawPixels, List.foldl_cons] at this ⊢
    rw [this]
    simp only [drawPixel, cell_toggle, ← Prod.ext_iff, List.mem_cons]
    by_cases hqp : q = p
    · subst hqp
      simp [hq.1]
    · have hpq : ¬ p = q := fun h => hqp h.symm
      simp [hqp, hpq]

/-- Drawing distinct cells collides exactly when one of them was on. -/
theorem hit_drawPixels {ps : List Pixel} (hn : ps.Nodup) (c : Canvas) :
    (drawPixels ps c).2 = (c.2 || ps.any fun p => c.1.cell p.1 p.2) := by
  induction ps generalizing c with
  | nil => simp [drawPixels]
  | cons q ps ih =>
    have hq := List.nodup_cons.1 hn
    have := ih hq.2 (drawPixel q.1 q.2 c)
    simp only [drawPixels, List.foldl_cons] at this ⊢
    rw [this]
    simp only [drawPixel, List.any_cons, ← Bool.or_assoc]
    congr 1
    rw [Bool.eq_iff_iff, List.any_eq_true, List.any_eq_true]
    refine exists_congr fun p => and_congr_right fun hp => ?_
    rw [cell_toggle, if_neg]
    rintro ⟨h1, h2⟩
    exact hq.1 (by rw [show q = p from Prod.ext h1 h2]; exact hp)

theorem mem_rowPixels (x0 y : Nat) (b : Byte) (p : Pixel) :
    p ∈ rowPixels x0 y b ↔
      ∃ c, c < 8 ∧ b.getLsbD (7 - c) = true ∧ p.1.val = y % 32 ∧ p.2.val = (x0 + c) % 64 := by
  simp only [rowPixels, List.mem_map, List.mem_filter, List.mem_range]
  constructor
  · rintro ⟨c, ⟨hc, hb⟩, rfl⟩
    exact ⟨c, hc, hb, rfl, rfl⟩
  · rintro ⟨c, hc, hb, h1, h2⟩
    exact ⟨c, ⟨hc, hb⟩, Prod.ext (Fin.ext h1.symm) (Fin.ext h2.symm)⟩

theorem mem_spritePixels (x0 : Nat) (bs : List Byte) (y : Nat) (p : Pixel) :
    p ∈ spritePixels x0 y bs ↔
      ∃ r c, ∃ h : r < bs.length, c < 8 ∧ (bs[r]).getLsbD (7 - c) = true ∧
        p.1.val = (y + r) % 32 ∧ p.2.val = (x0 + c) % 64 := by
  induction bs generalizing y with
  | nil => simp [spritePixels]
  | cons b bs ih =>
    rw [spritePixels, List.mem_append, ih, mem_rowPixels]
    constructor
    · rintro (⟨c, hc, hb, h1, h2⟩ | ⟨r, c, hr, hc, hb, h1, h2⟩)
      · exact ⟨0, c, by simp, hc, by simpa using hb, by simpa using h1, h2⟩
      · exact ⟨r + 1, c, by simpa using hr, hc, by simpa using hb, by rw [h1]; congr 1; omega, h2⟩
    · rintro ⟨r, c, hr, hc, hb, h1, h2⟩
      cases r with
      | zero => exact .inl ⟨c, hc, by simpa using hb, by simpa using h1, h2⟩
      | succ r =>
        exact .inr ⟨r, c, by simpa using hr, hc, by simpa using hb, by rw [h1]; congr 1; omega, h2⟩

theorem nodup_rowPixels (x0 y : Nat) (b : Byte) : (rowPixels x0 y b).Nodup := by
  refine List.Nodup.map_on ?_ (List.Nodup.filter _ List.nodup_range)
  intro c hc d hd h
  have hc := List.mem_range.1 (List.mem_of_mem_filter hc)
  have hd := List.mem_range.1 (List.mem_of_mem_filter hd)
  have h2 := congrArg (fun p : Pixel => p.2.val) h
  simp only [Fin.ofNat] at h2
  omega

/-- A sprite of at most 32 rows touches no cell twice (44_display R172). -/
theorem nodup_spritePixels (x0 : Nat) (bs : List Byte) (y : Nat) (hl : bs.length ≤ 32) :
    (spritePixels x0 y bs).Nodup := by
  induction bs generalizing y with
  | nil => simp [spritePixels]
  | cons b bs ih =>
    simp only [List.length_cons] at hl
    refine List.Nodup.append (nodup_rowPixels x0 y b) (ih (y + 1) (by omega)) ?_
    intro p hp hq
    obtain ⟨c, -, -, h1, -⟩ := (mem_rowPixels x0 y b p).1 hp
    obtain ⟨r, d, hr, -, -, h2, -⟩ := (mem_spritePixels x0 bs (y + 1) p).1 hq
    omega

/-- The cells DRW Vx,Vy,n toggles. -/
def drawnPixels (s : State) (x y : RegIdx) (n : Nibble) : List Pixel :=
  spritePixels ((s.reg x).toNat % 64) ((s.reg y).toNat % 32) (s.mem.readBytes s.i.toNat n.toNat)

theorem nodup_drawnPixels (s : State) (x y : RegIdx) (n : Nibble) : (drawnPixels s x y n).Nodup := by
  refine nodup_spritePixels _ _ _ ?_
  rw [Memory.length_readBytes]
  omega

theorem mem_drawnPixels (s : State) (x y : RegIdx) (n : Nibble) (row : Fin 32) (col : Fin 64) :
    (row, col) ∈ drawnPixels s x y n ↔ SpriteSets s x y n row col := by
  rw [drawnPixels, mem_spritePixels]
  constructor
  · rintro ⟨r, c, hr, hc, hb, h1, h2⟩
    rw [Memory.getElem_readBytes] at hb
    rw [Memory.length_readBytes] at hr
    exact ⟨r, c, hr, hc, hb, h1, h2⟩
  · rintro ⟨r, c, hr, hc, hb, h1, h2⟩
    refine ⟨r, c, by rw [Memory.length_readBytes]; exact hr, hc, ?_, h1, h2⟩
    rw [Memory.getElem_readBytes]
    exact hb

theorem drawSprite_fb (t : State) (x y : RegIdx) (n : Nibble) :
    (drawSprite x y n t).fb = (drawPixels (drawnPixels t x y n) (t.fb, false)).1 := by
  simp only [drawSprite, drawRows_eq_drawPixels, drawnPixels]

theorem drawSprite_vf (t : State) (x y : RegIdx) (n : Nibble) :
    (drawSprite x y n t).reg vf = flagByte ((drawnPixels t x y n).any fun p => t.fb.cell p.1 p.2) := by
  have h := hit_drawPixels (nodup_drawnPixels t x y n) (t.fb, false)
  show ((t.setReg vf _).reg vf) = _
  rw [State.reg_setReg_self, drawRows_eq_drawPixels]
  simp only [drawnPixels, Bool.false_or] at h ⊢
  rw [h]

end Sys2Proof.Machine
end

