-- ==== Sys2Proof/Laws/PerInstr.lean ====
section
/-! SUPPORT. Statements made per instruction. `DispatchKey`: the word the encoder writes has, by the rule of 30_encoding
R74, the id that 30_encoding R76 lists for the instruction's row. -/

namespace Sys2Proof.Laws.DispatchKey

/-- The encoded word's dispatch key is the id column of 30_encoding R76. -/
def Statement (i : Instr) : Prop := dispatchId (encode i) = rowId i

theorem cls : Statement (.cls) := rfl

theorem ret : Statement (.ret) := rfl

theorem jp (nnn : Addr12) : Statement (.jp nnn) := (dispatchId_singleNNN _ _ (by decide)).trans rfl

theorem call (nnn : Addr12) : Statement (.call nnn) := (dispatchId_singleNNN _ _ (by decide)).trans rfl

theorem seImm (x : RegIdx) (kk : Byte) : Statement (.seImm x kk) := (dispatchId_singleXKK _ _ _ (by decide)).trans rfl

theorem sneImm (x : RegIdx) (kk : Byte) : Statement (.sneImm x kk) := (dispatchId_singleXKK _ _ _ (by decide)).trans rfl

theorem seReg (x : RegIdx) (y : RegIdx) (g : Nibble) : Statement (.seReg x y g) := (dispatchId_single _ _ _ _ (by decide)).trans rfl

theorem sneReg (x : RegIdx) (y : RegIdx) : Statement (.sneReg x y) := (dispatchId_alu _ _ _ _ (by decide)).trans rfl

theorem ldImm (x : RegIdx) (kk : Byte) : Statement (.ldImm x kk) := (dispatchId_singleXKK _ _ _ (by decide)).trans rfl

theorem addImm (x : RegIdx) (kk : Byte) : Statement (.addImm x kk) := (dispatchId_singleXKK _ _ _ (by decide)).trans rfl

theorem ldReg (x : RegIdx) (y : RegIdx) : Statement (.ldReg x y) := (dispatchId_alu _ _ _ _ (by decide)).trans rfl

theorem orReg (x : RegIdx) (y : RegIdx) : Statement (.orReg x y) := (dispatchId_alu _ _ _ _ (by decide)).trans rfl

theorem andReg (x : RegIdx) (y : RegIdx) : Statement (.andReg x y) := (dispatchId_alu _ _ _ _ (by decide)).trans rfl

theorem xorReg (x : RegIdx) (y : RegIdx) : Statement (.xorReg x y) := (dispatchId_alu _ _ _ _ (by decide)).trans rfl

theorem addReg (x : RegIdx) (y : RegIdx) : Statement (.addReg x y) := (dispatchId_alu _ _ _ _ (by decide)).trans rfl

theorem subReg (x : RegIdx) (y : RegIdx) : Statement (.subReg x y) := (dispatchId_alu _ _ _ _ (by decide)).trans rfl

theorem shr (x : RegIdx) (g : Nibble) : Statement (.shr x g) := (dispatchId_alu _ _ _ _ (by decide)).trans rfl

theorem subnReg (x : RegIdx) (y : RegIdx) : Statement (.subnReg x y) := (dispatchId_alu _ _ _ _ (by decide)).trans rfl

theorem shl (x : RegIdx) (g : Nibble) : Statement (.shl x g) := (dispatchId_alu _ _ _ _ (by decide)).trans rfl

theorem ldI (nnn : Addr12) : Statement (.ldI nnn) := (dispatchId_singleNNN _ _ (by decide)).trans rfl

theorem jpV0 (nnn : Addr12) : Statement (.jpV0 nnn) := (dispatchId_singleNNN _ _ (by decide)).trans rfl

theorem rnd (x : RegIdx) (kk : Byte) : Statement (.rnd x kk) := (dispatchId_singleXKK _ _ _ (by decide)).trans rfl

theorem drw (x : RegIdx) (y : RegIdx) (n : Nibble) : Statement (.drw x y n) := (dispatchId_single _ _ _ _ (by decide)).trans rfl

theorem skp (x : RegIdx) : Statement (.skp x) := (dispatchId_upper _ _ _ (by decide)).trans rfl

theorem sknp (x : RegIdx) : Statement (.sknp x) := (dispatchId_upper _ _ _ (by decide)).trans rfl

theorem ldVxDt (x : RegIdx) : Statement (.ldVxDt x) := (dispatchId_upper _ _ _ (by decide)).trans rfl

theorem ldDtVx (x : RegIdx) : Statement (.ldDtVx x) := (dispatchId_upper _ _ _ (by decide)).trans rfl

theorem ldStVx (x : RegIdx) : Statement (.ldStVx x) := (dispatchId_upper _ _ _ (by decide)).trans rfl

theorem addI (x : RegIdx) : Statement (.addI x) := (dispatchId_upper _ _ _ (by decide)).trans rfl

theorem ldF (x : RegIdx) : Statement (.ldF x) := (dispatchId_upper _ _ _ (by decide)).trans rfl

theorem ldB (x : RegIdx) : Statement (.ldB x) := (dispatchId_upper _ _ _ (by decide)).trans rfl

theorem ldMemVx (x : RegIdx) : Statement (.ldMemVx x) := (dispatchId_upper _ _ _ (by decide)).trans rfl

theorem ldVxMem (x : RegIdx) : Statement (.ldVxMem x) := (dispatchId_upper _ _ _ (by decide)).trans rfl

theorem ldVxK (x : RegIdx) : Statement (.ldVxK x) := (dispatchId_upper _ _ _ (by decide)).trans rfl

end Sys2Proof.Laws.DispatchKey
end

