-- ==== Sys2Proof/Tests/Slice0.lean ====
section
/-! SUPPORT. Tests of one step each, their expected results from the vectors of spec/95_test_vectors.md (named in each
comment), and for every statement with hypotheses a concrete state and operands that meet them, clause by clause at the
ends of its range. -/

namespace Sys2Proof.Tests

open Sys2Proof Sys2Proof.Machine

/-- The construction state with some registers set, and a word stored at 0x200. -/
def mach (w : Word) (regs : List (RegIdx × Byte)) : State :=
  let s : State := { State.reset with mem := State.reset.mem.writeBytes 0x200 [highByte w, lowByte w] }
  regs.foldl (fun s r => s.setReg r.1 r.2) s

/-- The same with `I` set and bytes stored there. -/
def machI (w : Word) (regs : List (RegIdx × Byte)) (i : Word) (bytes : List Byte) : State :=
  { mach w regs with i := i, mem := (mach w regs).mem.writeBytes i.toNat bytes }

/-- What a view shows of the next state; none where there is no next state. -/
def after {α : Type} (o : Host.Outcome State Fault Refusal) (view : State → α) : Option α :=
  match o with
  | .next t => some (view t)
  | _       => none

/-- The step of a state answers the state before it with a fault recorded and nothing else changed (60_exceptions
R211). -/
def stepFaults (s : State) (cause : FaultCause) (word : Option Word) : Bool :=
  after (step s) id == some { s with fault := some { cause := cause, faultPc := s.pc, word := word } }

/-! Decoding: for every constructor a word written out bit by bit from its pattern (30_encoding R76); the field examples
of the source are E1. -/

theorem test_decode_control :
    decodeWord 0b0000000011100000#16 = some .cls ∧ decodeWord 0b0000000011101110#16 = some .ret ∧
    decodeWord 0b0001101010101011#16 = some (.jp 0xAAB#12) ∧ decodeWord 0b0010001000010000#16 = some (.call 0x210#12) ∧
    decodeWord 0b0011101000100010#16 = some (.seImm 10 0x22#8) ∧
    decodeWord 0b0100001100100010#16 = some (.sneImm 3 0x22#8) ∧
    decodeWord 0b0101101010110111#16 = some (.seReg 10 11 7#4) ∧
    decodeWord 0b1001101010110000#16 = some (.sneReg 10 11) ∧
    decodeWord 0b1011101010101010#16 = some (.jpV0 0xAAA#12) := by decide

theorem test_decode_alu :
    decodeWord 0b0110100100100010#16 = some (.ldImm 9 0x22#8) ∧ decodeWord 0b0111000100000011#16 = some (.addImm 1 3#8) ∧
    decodeWord 0b1000001010110000#16 = some (.ldReg 2 11) ∧ decodeWord 0b1000000100100001#16 = some (.orReg 1 2) ∧
    decodeWord 0b1000000100100010#16 = some (.andReg 1 2) ∧ decodeWord 0b1000000100100011#16 = some (.xorReg 1 2) ∧
    decodeWord 0b1000000100100100#16 = some (.addReg 1 2) ∧ decodeWord 0b1000001000110101#16 = some (.subReg 2 3) ∧
    decodeWord 0b1000101010110110#16 = some (.shr 10 11#4) ∧ decodeWord 0b1000000100100111#16 = some (.subnReg 1 2) ∧
    decodeWord 0b1000000100101110#16 = some (.shl 1 2#4) ∧ decodeWord 0b1100001100001111#16 = some (.rnd 3 0x0F#8) := by
  decide

theorem test_decode_memory_display_timers_keypad :
    decodeWord 0b1010001100000000#16 = some (.ldI 0x300#12) ∧ decodeWord 0b1111001000011110#16 = some (.addI 2) ∧
    decodeWord 0b1111101000101001#16 = some (.ldF 10) ∧ decodeWord 0b1111000000110011#16 = some (.ldB 0) ∧
    decodeWord 0b1111001001010101#16 = some (.ldMemVx 2) ∧ decodeWord 0b1111001001100101#16 = some (.ldVxMem 2) ∧
    decodeWord 0b1101101011111101#16 = some (.drw 10 15 13#4) ∧ decodeWord 0b1110010110011110#16 = some (.skp 5) ∧
    decodeWord 0b1110000110100001#16 = some (.sknp 1) ∧ decodeWord 0b1111000100000111#16 = some (.ldVxDt 1) ∧
    decodeWord 0b1111000000010101#16 = some (.ldDtVx 0) ∧ decodeWord 0b1111001000011000#16 = some (.ldStVx 2) ∧
    decodeWord 0b1111101000001010#16 = some (.ldVxK 10) := by decide

/-- The words without a handler of the decoder table of Part 2, rejected by name. -/
theorem test_decode_unassigned :
    decodeBytes [0x00#8, 0xE1#8] = .error (.unassigned 0x00E1#16) ∧ decodeBytes [0x01#8, 0x23#8] = .error (.unassigned 0x0123#16) ∧
    decodeBytes [0x8A#8, 0xB8#8] = .error (.unassigned 0x8AB8#16) ∧ decodeBytes [0x9A#8, 0xB1#8] = .error (.unassigned 0x9AB1#16) ∧
    decodeBytes [0xE5#8, 0xA0#8] = .error (.unassigned 0xE5A0#16) ∧ decodeBytes [0xF2#8, 0x66#8] = .error (.unassigned 0xF266#16) ∧
    decodeBytes [0x60#8] = .error .truncated ∧ decodeBytes [] = .error .truncated := by decide

theorem test_decodeTableWord :
    decodeTableWord 16 0x8235 = some (.subReg 2 3) ∧ decodeTableWord 16 0x00E1 = none ∧
    decodeTableWord 16 0x5AB7 = some (.seReg 10 11 7#4) := by decide

/-- The word placed is the first to run after construction (6922, AL1). -/
theorem test_withFetchWord :
    after (step (State.reset.withFetchWord 16 0x6922)) (fun t => (t.reg 9, t.pc)) = some (0x22#8, 0x202#16) ∧
    (State.reset.withFetchWord 16 0x6922).mem.wf = true := by decide

/-! Well-formedness: one ill-formed line for each check, refused, beside a well-formed one. -/

theorem test_wellFormed_register : (AsmLine.mk .skp [.reg 16]).wellFormed = false ∧ (AsmLine.mk .skp [.reg 15]).wellFormed = true := by
  decide

theorem test_wellFormed_byte :
    (AsmLine.mk .ld [.reg 0, .byte 256]).wellFormed = false ∧ (AsmLine.mk .ld [.reg 0, .byte 255]).wellFormed = true := by
  decide

theorem test_wellFormed_address : (AsmLine.mk .jp [.addr 4096]).wellFormed = false ∧ (AsmLine.mk .jp [.addr 4095]).wellFormed = true := by
  decide

theorem test_wellFormed_nibble :
    (AsmLine.mk .drw [.reg 0, .reg 1, .nibble 16]).wellFormed = false ∧
    (AsmLine.mk .drw [.reg 0, .reg 1, .nibble 15]).wellFormed = true := by decide

/-- Operand shapes no row has: no operand where one is needed, DT loaded from memory, an indexed jump through V1. -/
theorem test_wellFormed_shape :
    (AsmLine.mk .call []).wellFormed = false ∧ (AsmLine.mk .ld [.delayTimer, .memAtIndex]).wellFormed = false ∧
    (AsmLine.mk .jp [.reg 1, .addr 0x300]).wellFormed = false := by decide

/-- The row is picked from the operand shapes (30_encoding R81): the words of E1 and P4. -/
theorem test_assembler_rows :
    (AsmLine.mk .ld [.reg 0, .waitKey]).toInstr.map encode = some 0xF00A#16 ∧
    (AsmLine.mk .sub [.reg 2, .reg 3]).toInstr.map encode = some 0x8235#16 ∧
    (AsmLine.mk .se [.reg 10, .byte 0x22]).toInstr.map encode = some 0x3A22#16 := by decide

/-! Memory: the canonical form. -/

theorem test_memory_zero_is_unlisted :
    (Memory.write [] 0x300 0#8) = [] ∧ (Memory.write [(0x300, 5#8)] 0x300 0#8) = [] ∧
    (Memory.write [(0x300, 5#8)] 0x2FF 7#8) = [(0x2FF, 7#8), (0x300, 5#8)] := by decide

theorem test_memory_wf_refuses :
    Memory.wf [(2, 1#8), (1, 1#8)] = false ∧ Memory.wf [(1, 0#8)] = false ∧ Memory.wf [(0x1000, 1#8)] = false ∧
    Memory.wf [(0xFFF, 1#8)] = true := by decide

/-! Control flow (vectors CF). -/

/-- CF3: the timers decay with the return; the slot keeps its value. -/
theorem test_ret :
    after (step { mach 0x00EE#16 [] with sp := 1#8, stack := (mach 0x00EE#16 []).stack.set 0 0x204#16, dt := 5#8 })
      (fun t => (t.pc, t.sp, t.dt, t.stackSlot 0)) = some (0x204#16, 0#8, 4#8, 0x204#16) := by decide

/-- CF4: the fault leaves the timers. -/
theorem test_ret_underflow :
    stepFaults { mach 0x00EE#16 [] with dt := 5#8, st := 3#8 } .stackUnderflow (some 0x00EE#16) = true := by decide

/-- CF6: an odd target is legal. -/
theorem test_jp : after (step (mach 0x1203#16 [])) State.pc = some 0x203#16 := by decide

/-- CF7: the second cycle. -/
theorem test_fetch_bounds : stepFaults { mach 0x1FFF#16 [] with pc := 0xFFF#16 } .fetchBounds none = true := by decide

/-- CF10. -/
theorem test_call :
    after (step { mach 0x2300#16 [] with sp := 15#8 }) (fun t => (t.pc, t.sp, t.stackSlot 15, t.stackSlot 14)) =
      some (0x300#16, 16#8, 0x202#16, 0#16) := by decide

/-- CF11. -/
theorem test_call_overflow :
    stepFaults { mach 0x2300#16 [] with sp := 16#8 } .stackOverflow (some 0x2300#16) = true := by decide

/-- CF12, CF13. -/
theorem test_seImm :
    after (step (mach 0x3322#16 [(3, 0x22#8)])) State.pc = some 0x204#16 ∧
    after (step (mach 0x3322#16 [(3, 0x21#8)])) State.pc = some 0x202#16 := by decide

/-- CF15, CF16. -/
theorem test_sneImm :
    after (step (mach 0x4322#16 [(3, 0x21#8)])) State.pc = some 0x204#16 ∧
    after (step (mach 0x4322#16 [(3, 0x22#8)])) State.pc = some 0x202#16 := by decide

/-- CF18, CF19. -/
theorem test_seReg :
    after (step (mach 0x5120#16 [(1, 7#8), (2, 8#8)])) State.pc = some 0x202#16 ∧
    after (step (mach 0x512F#16 [(1, 7#8), (2, 7#8)])) State.pc = some 0x204#16 := by decide

/-- CF21, CF22. -/
theorem test_sneReg :
    after (step (mach 0x9120#16 [(1, 7#8), (2, 8#8)])) State.pc = some 0x204#16 ∧
    after (step (mach 0x9120#16 [(1, 7#8), (2, 7#8)])) State.pc = some 0x202#16 := by decide

/-- CF26, CF28. -/
theorem test_jpV0 :
    after (step (mach 0xBF01#16 [(0, 0xFF#8)])) State.pc = some 0x1000#16 ∧
    after (step (mach 0xB5FE#16 [(0, 1#8), (5, 0x40#8)])) State.pc = some 0x5FF#16 := by decide

/-! The ALU (vectors AL). -/

/-- AL1. -/
theorem test_ldImm : after (step (mach 0x6922#16 [])) (fun t => (t.reg 9, t.pc)) = some (0x22#8, 0x202#16) := by decide

/-- AL4. -/
theorem test_addImm :
    after (step (mach 0x7101#16 [(1, 0xFF#8), (15, 7#8)])) (fun t => (t.reg 1, t.reg 15)) = some (0#8, 7#8) := by decide

/-- AL6. -/
theorem test_ldReg :
    after (step (mach 0x82B0#16 [(11, 0x5A#8)])) (fun t => (t.reg 2, t.reg 11)) = some (0x5A#8, 0x5A#8) := by decide

/-- AL8. -/
theorem test_orReg :
    after (step (mach 0x8121#16 [(1, 0x0F#8), (2, 0xF0#8), (15, 5#8)])) (fun t => (t.reg 1, t.reg 15)) =
      some (0xFF#8, 5#8) := by decide

/-- AL9. -/
theorem test_andReg :
    after (step (mach 0x8122#16 [(1, 0x3C#8), (2, 0x0F#8), (15, 5#8)])) (fun t => (t.reg 1, t.reg 15)) =
      some (0x0C#8, 5#8) := by decide

/-- AL10. -/
theorem test_xorReg :
    after (step (mach 0x8123#16 [(1, 0x3C#8), (2, 0x0F#8)])) (fun t => (t.reg 1, t.reg 2)) = some (0x33#8, 0x0F#8) := by
  decide

/-- AL17 (x = F) and AL18 (y = F). -/
theorem test_addReg_vf :
    after (step (mach 0x8F14#16 [(15, 0xF0#8), (1, 0x20#8)])) (·.reg 15) = some 0x10#8 ∧
    after (step (mach 0x81F4#16 [(15, 1#8), (1, 0xFF#8)])) (fun t => (t.reg 1, t.reg 15)) = some (0#8, 1#8) := by decide

/-- AL12, AL13 (E2). -/
theorem test_addReg_carry :
    after (step (mach 0x8124#16 [(1, 0xFF#8), (2, 1#8)])) (fun t => (t.reg 1, t.reg 15)) = some (0#8, 1#8) ∧
    after (step (mach 0x8124#16 [(1, 1#8), (2, 1#8)])) (fun t => (t.reg 1, t.reg 15)) = some (2#8, 0#8) := by decide

/-- AL20, AL21. -/
theorem test_subReg :
    after (step (mach 0x8125#16 [(1, 3#8), (2, 3#8)])) (fun t => (t.reg 1, t.reg 15)) = some (0#8, 0#8) ∧
    after (step (mach 0x8125#16 [(1, 1#8), (2, 2#8)])) (fun t => (t.reg 1, t.reg 15)) = some (0xFF#8, 0#8) := by decide

/-- AL23 (x = F) and AL24 (y = F). -/
theorem test_subReg_vf :
    after (step (mach 0x8F15#16 [(15, 5#8), (1, 3#8)])) (·.reg 15) = some 0xFE#8 ∧
    after (step (mach 0x81F5#16 [(1, 5#8), (15, 3#8)])) (fun t => (t.reg 1, t.reg 15)) = some (4#8, 1#8) := by decide

/-- AL28 (Vy is not read) and AL29 (x = F). -/
theorem test_shr :
    after (step (mach 0x8126#16 [(1, 4#8), (2, 0xFF#8)])) (fun t => (t.reg 1, t.reg 15)) = some (2#8, 0#8) ∧
    after (step (mach 0x8F06#16 [(15, 0xFF#8)])) (·.reg 15) = some 0#8 := by decide

/-- AL30, AL32. -/
theorem test_subnReg :
    after (step (mach 0x8127#16 [(1, 3#8), (2, 5#8)])) (fun t => (t.reg 1, t.reg 15)) = some (2#8, 1#8) ∧
    after (step (mach 0x8127#16 [(1, 2#8), (2, 1#8)])) (fun t => (t.reg 1, t.reg 15)) = some (0xFF#8, 0#8) := by decide

/-- AL33 (x = F) and AL34 (y = F). -/
theorem test_subnReg_vf :
    after (step (mach 0x8F27#16 [(15, 3#8), (2, 5#8)])) (·.reg 15) = some 4#8 ∧
    after (step (mach 0x81F7#16 [(1, 5#8), (15, 3#8)])) (fun t => (t.reg 1, t.reg 15)) = some (0xFB#8, 0#8) := by decide

/-- AL37 and AL39 (x = F). -/
theorem test_shl :
    after (step (mach 0x810E#16 [(1, 0xC1#8)])) (fun t => (t.reg 1, t.reg 15)) = some (0x82#8, 1#8) ∧
    after (step (mach 0x8F0E#16 [(15, 0x80#8)])) (·.reg 15) = some 2#8 := by decide

/-- AL41 with the free draw in the place of r. -/
theorem test_rnd : after (exec (.rnd 3 0x0F#8) (mach 0xC30F#16 [])) (·.reg 3) = some (Config.randomDraw 0 &&& 0x0F#8) := rfl

/-- AL42: a zero mask leaves 0 whatever the draw is. -/
theorem test_rnd_zero_mask : after (exec (.rnd 3 0#8) (mach 0xC300#16 [])) (·.reg 3) = some 0#8 := by
  show some (Config.randomDraw 0 &&& 0#8) = some 0#8
  rw [BitVec.and_zero]

/-- AL44. -/
theorem test_unassigned :
    after (step (mach 0x8128#16 [(1, 5#8), (2, 3#8)])) (fun t => (t.reg 1, t.reg 15, t.pc)) = some (5#8, 0#8, 0x202#16) := by
  decide

/-! Index and memory (vectors IM). -/

/-- IM2. -/
theorem test_ldI : after (step (mach 0xAFFF#16 [])) State.i = some 0xFFF#16 := by decide

/-- IM4: VF stays. -/
theorem test_addI :
    after (step (machI 0xF21E#16 [(2, 0xFF#8)] 0x300#16 [])) (fun t => (t.i, t.reg 15)) = some (0x3FF#16, 0#8) := by decide

/-- IM7. -/
theorem test_addI_overflow :
    stepFaults { mach 0xF01E#16 [(0, 1#8)] with i := 0xFFFF#16 } .indexOverflow (some 0xF01E#16) = true := by decide

/-- IM8, IM10. -/
theorem test_ldF :
    after (step (mach 0xFA29#16 [(10, 0x0A#8)])) State.i = some 0x082#16 ∧
    after (step (mach 0xFA29#16 [(10, 0x0F#8)])) State.i = some 0x09B#16 := by decide

/-- IM11. -/
theorem test_ldF_range : stepFaults (mach 0xFA29#16 [(10, 0x10#8)]) .fontDigitRange (some 0xFA29#16) = true := by decide

/-- IM12 and IM13 (zeroes over nines). -/
theorem test_ldB :
    after (step (machI 0xF033#16 [(0, 0xFE#8)] 0x300#16 [])) (fun t => t.mem.readBytes 0x300 3) =
      some [2#8, 5#8, 4#8] ∧
    after (step (machI 0xF033#16 [] 0x300#16 [9#8, 9#8, 9#8])) (fun t => t.mem.readBytes 0x300 3) =
      some [0#8, 0#8, 0#8] := by decide

/-- IM17. -/
theorem test_ldB_bounds :
    stepFaults { mach 0xF033#16 [(0, 0x7B#8)] with i := 0xFFE#16 } .memoryBounds (some 0xF033#16) = true := by decide

/-- IM18: `I` stays. -/
theorem test_ldMemVx :
    after (step (machI 0xF255#16 [(0, 1#8), (1, 2#8), (2, 3#8), (3, 4#8)] 0x300#16 []))
      (fun t => (t.mem.readBytes 0x300 4, t.i)) = some ([1#8, 2#8, 3#8, 0#8], 0x300#16) := by decide

/-- IM22. -/
theorem test_ldMemVx_bounds :
    stepFaults { mach 0xFF55#16 [(0, 0x22#8)] with i := 0xFF1#16 } .memoryBounds (some 0xFF55#16) = true := by decide

/-- IM25: V1 stays, `I` stays. -/
theorem test_ldVxMem :
    after (step (machI 0xF065#16 [(1, 0x77#8)] 0x300#16 [0x10#8, 0x20#8])) (fun t => (t.reg 0, t.reg 1, t.i)) =
      some (0x10#8, 0x77#8, 0x300#16) := by decide

/-- IM26: the last of sixteen. -/
theorem test_ldVxMem_all :
    after (step { machI 0xFF65#16 [] 0x30F#16 [0x99#8] with i := 0x300#16 }) (fun t => (t.reg 15, t.reg 14)) =
      some (0x99#8, 0#8) := by decide

/-! Display (vectors DS). -/

/-- DS1. -/
theorem test_cls :
    after (step { mach 0x00E0#16 [(15, 5#8)] with fb := (State.reset.fb.toggle 0 0).toggle 31 63 })
      (fun t => (t.fb.cell 0 0, t.fb.cell 31 63, t.reg 15, t.mustDraw)) = some (false, false, 5#8, false) := by decide

/-- DS7: bit 7 is the leftmost column, the cell that was on goes off, and the draw collides. -/
theorem test_drw :
    after (step { machI 0xD011#16 [] 0x300#16 [0xC0#8] with fb := State.reset.fb.toggle 0 1 })
      (fun t => (t.fb.cell 0 0, t.fb.cell 0 1, t.fb.cell 0 2, t.reg 15, t.mustDraw)) =
      some (true, false, false, 1#8, true) := by decide

/-- DS4 (E4): the row wraps. -/
theorem test_drw_wraps :
    after (step (machI 0xD011#16 [(0, 60#8)] 0x300#16 [0xFF#8]))
      (fun t => (t.fb.cell 0 63, t.fb.cell 0 0, t.fb.cell 0 3, t.fb.cell 0 4, t.reg 15)) =
      some (true, true, true, false, 0#8) := by decide

/-- Rule R172 against the second sentence of R174 (log 17): the cell under the sprite is on, the first draw turns
it off, and the second draw therefore meets no cell that is on. -/
theorem test_second_draw_may_not_collide :
    after (step { machI 0xD011#16 [] 0x300#16 [0x80#8] with fb := State.reset.fb.toggle 0 0 })
      (fun t => (t.reg 15, after (step { t with pc := 0x200#16 }) (fun u => (u.reg 15, u.fb.cell 0 0)))) =
      some (1#8, some (0#8, true)) := by decide

/-! Timers and keypad (vectors TK). -/

/-- TK1. -/
theorem test_ldVxDt :
    after (step { mach 0xF107#16 [] with dt := 6#8 }) (fun t => (t.reg 1, t.dt)) = some (6#8, 5#8) := by decide

/-- TK3, TK4. -/
theorem test_ldDtVx :
    after (step (mach 0xF015#16 [(0, 7#8)])) State.dt = some 6#8 ∧
    after (step (mach 0xF015#16 [(0, 1#8)])) State.dt = some 0#8 := by decide

/-- TK6, TK7. -/
theorem test_ldStVx :
    after (step (mach 0xF218#16 [(2, 3#8)])) (fun t => (t.st, t.soundActive)) = some (2#8, true) ∧
    after (step (mach 0xF218#16 [(2, 1#8)])) (fun t => (t.st, t.soundActive)) = some (0#8, false) := by decide

/-- The first cycle of TK10, and TK9. -/
theorem test_skp :
    after (step (((mach 0xE09E#16 [(0, 7#8)]).setKeyLine 7 true).setKeyLine 8 true))
      (fun t => (t.pc, t.keyLine 7, t.keyLine 8)) = some (0x204#16, false, true) ∧
    after (step (mach 0xE09E#16 [(0, 7#8)])) State.pc = some 0x202#16 := by decide

/-- TK11. -/
theorem test_skp_range : stepFaults (mach 0xE09E#16 [(0, 0x10#8)]) .keyIndexRange (some 0xE09E#16) = true := by decide

/-- TK12, TK13. -/
theorem test_sknp :
    after (step ((mach 0xE1A1#16 [(1, 3#8)]).setKeyLine 3 true)) (fun t => (t.pc, t.keyLine 3)) = some (0x202#16, false) ∧
    after (step (mach 0xE1A1#16 [(1, 3#8)])) (fun t => (t.pc, t.keyLine 3)) = some (0x204#16, false) := by decide

/-- TK15. -/
theorem test_sknp_range : stepFaults (mach 0xE1A1#16 [(1, 0xFF#8)]) .keyIndexRange (some 0xE1A1#16) = true := by decide

/-- TK18: the lowest line, none cleared. -/
theorem test_ldVxK :
    after (step (((mach 0xF00A#16 []).setKeyLine 9 true).setKeyLine 3 true))
      (fun t => (t.pc, t.reg 0, t.keyLine 3, t.keyLine 9)) = some (0x202#16, 3#8, true, true) := by decide

/-- TK16: `pc` stays and the timer decays. -/
theorem test_ldVxK_waits :
    after (step { mach 0xF00A#16 [] with dt := 3#8 }) (fun t => (t.pc, t.dt)) = some (0x200#16, 2#8) := by decide

/-! The host interface (60_exceptions R223, R225, R231; 40_cycle R105; 70_reset_and_hazards R241). -/

/-- A block with a font and a program loaded, the program the word given. -/
def loaded (w : Word) : Option Block :=
  Block.performAll [.loadFont [0xF0#8], .loadProgram [highByte w, lowByte w]] Block.construct

/-- P4 in short: a key event between cycles is what the next cycle sees. -/
theorem test_key_event_reaches_the_next_cycle :
    ((loaded 0xF00A#16).bind (Block.performAll [.cycle, .key 7 true, .cycle])).map
      (fun b => (b.machine.reg 0, b.machine.pc, b.machine.keyLine 7)) = some (7#8, 0x202#16, true) := by decide

/-- A cycle needs both images; a load comes before the first cycle. -/
theorem test_order_of_operations :
    Block.construct.perform .cycle = none ∧
    ((loaded 0x6001#16).bind (Block.performAll [.cycle, .loadProgram []])) = none ∧
    ((loaded 0x6001#16).bind (Block.performAll [.halt, .cycle])) = none := by decide

/-- A key event and the acknowledgement on a halted machine change their field (log 14). -/
theorem test_events_while_halted :
    (Block.performAll [.halt, .key 7 true, .ackDraw] Block.construct).map (·.machine.keyLine 7) = some true := by decide

/-- A pending halt goes before a requested cycle. -/
theorem test_halt_before_cycle :
    ((loaded 0x6001#16).bind (·.boundary true true)).map (fun b => (b.machine.halted, b.machine.reg 0)) =
      some (true, 0#8) := by decide

/-- A run that ended by a halt, and one that ended in a fault (60_exceptions R232). -/
theorem test_ends_of_a_run : State.reset.halt.EndedByHalt ∧ (State.reset.takeFault .fetchBounds none).EndedByFault :=
  ⟨⟨rfl, rfl⟩, by simp [State.EndedByFault, State.takeFault]⟩

/-! Witnesses: for every statement with hypotheses, values that meet them, at the ends of each clause's range. -/

theorem witness_DecodeOfEncodeReturnsInstruction : decodeBytes (encodeBytes (.shr 15 15#4) ++ [1#8]) = .ok (.shr 15 15#4, [1#8]) := by
  decide

theorem witness_EncodeOfDecodeReturnsWord : decodeWord 0x5AB7#16 = some (.seReg 10 11 7#4) := by decide

/-- Each line of the table of unassigned words, and next to each a word that is assigned. -/
theorem witness_UnassignedWordsAreThoseListed :
    decodeWord 0x00E1#16 = none ∧ decodeWord 0x8008#16 = none ∧ decodeWord 0x9001#16 = none ∧
    decodeWord 0xE09F#16 = none ∧ decodeWord 0xF066#16 = none ∧ decodeWord 0x00E0#16 ≠ none ∧
    decodeWord 0x8007#16 ≠ none ∧ decodeWord 0x9000#16 ≠ none ∧ decodeWord 0xE09E#16 ≠ none ∧
    decodeWord 0xF065#16 ≠ none := by decide

/-- The ends of the four ranges of top nibbles. -/
theorem witness_DispatchKeyMasksByTopNibble :
    dispatchId 0x0FFF#16 = 0x0FFF#16 ∧ dispatchId 0x8FFF#16 = 0x800F#16 ∧ dispatchId 0x9FFF#16 = 0x900F#16 ∧
    dispatchId 0xEFFF#16 = 0xE0FF#16 ∧ dispatchId 0xFFFF#16 = 0xF0FF#16 ∧ dispatchId 0x1FFF#16 = 0x1000#16 ∧
    dispatchId 0x7FFF#16 = 0x7000#16 ∧ dispatchId 0xAFFF#16 = 0xA000#16 ∧ dispatchId 0xDFFF#16 = 0xD000#16 := by decide

theorem witness_AssemblerPicksTheRow : (Instr.seReg 1 2 15#4).toAsm.toInstr = some (.seReg 1 2 0#4) := by decide

/-- A machine at the last address a word can be fetched from. -/
def atEnd (high low : Byte) : State :=
  { State.reset with mem := State.reset.mem.writeBytes 0xFFE [high, low], pc := 0xFFE#16 }

theorem witness_StepRunsTheDecodedInstruction :
    (atEnd 0x69#8 0x22#8).halted = false ∧ (atEnd 0x69#8 0x22#8).fault = none ∧ (atEnd 0x69#8 0x22#8).pc.toNat ≤ 0xFFE ∧
    (0x6922#16).toNat = ((atEnd 0x69#8 0x22#8).mem.read 0xFFE).toNat * 256 + ((atEnd 0x69#8 0x22#8).mem.read 0xFFF).toNat ∧
    decodeWord 0x6922#16 = some (.ldImm 9 0x22#8) := by decide

theorem witness_UnassignedWordIsNoOp :
    (atEnd 0x81#8 0x28#8).halted = false ∧ (atEnd 0x81#8 0x28#8).fault = none ∧ (atEnd 0x81#8 0x28#8).pc.toNat ≤ 0xFFE ∧
    (0x8128#16).toNat = ((atEnd 0x81#8 0x28#8).mem.read 0xFFE).toNat * 256 + ((atEnd 0x81#8 0x28#8).mem.read 0xFFF).toNat ∧
    decodeWord 0x8128#16 = none := by decide

theorem witness_FetchBeyondMemoryFaults :
    let s : State := { State.reset with pc := 0xFFF#16 }
    s.halted = false ∧ s.fault = none ∧ 0xFFE < s.pc.toNat := by decide

/-- The three run states. -/
theorem witness_OnlyRunningStatesHaveAStep :
    (after (step State.reset) State.pc).isSome = true ∧ (after (step State.reset.halt) State.pc).isSome = false ∧
    (after (step (State.reset.takeFault .fetchBounds none)) State.pc).isSome = false := by decide

/-- A state that meets the invariant with the stack all but full and has a step. -/
theorem witness_StepKeepsInvariant :
    let s : State := { mach 0x2300#16 [] with sp := 15#8 }
    s.Inv ∧ (after (step s) State.sp) = some 16#8 :=
  ⟨⟨by decide, by decide, by decide, by decide, by intro r h; cases h⟩, by decide⟩

/-- Both kinds of faulting cycle: at the first `pc` with no word, and at one with a word. -/
theorem witness_FaultingCycleChangesOnlyFault :
    after (step { State.reset with pc := 0xFFF#16 }) (fun t => t.fault.map (·.word)) = some (some none) ∧
    after (step { atEnd 0x00#8 0xEE#8 with st := 3#8 }) (fun t => t.fault.map (·.word)) = some (some (some 0x00EE#16)) := by
  decide

/-- One instruction for each cause of the table but the fetch's, each at the first value that faults. -/
theorem witness_FaultsAreThoseOfTheTable :
    let cause (o : Host.Outcome State Fault Refusal) : Option FaultCause := (after o fun t => t.fault.map (·.cause)).join
    cause (exec (.call 0x300#12) { State.reset with sp := 16#8 }) = some .stackOverflow ∧
    cause (exec .ret State.reset) = some .stackUnderflow ∧
    cause (exec (.drw 0 1 2#4) { State.reset with i := 0xFFF#16 }) = some .memoryBounds ∧
    cause (exec (.ldB 0) { State.reset with i := 0xFFE#16 }) = some .memoryBounds ∧
    cause (exec (.ldMemVx 15) { State.reset with i := 0xFF1#16 }) = some .memoryBounds ∧
    cause (exec (.ldVxMem 2) { State.reset with i := 0xFFE#16 }) = some .memoryBounds ∧
    cause (exec (.ldF 0) (State.reset.setReg 0 16#8)) = some .fontDigitRange ∧
    cause (exec (.skp 0) (State.reset.setReg 0 16#8)) = some .keyIndexRange ∧
    cause (exec (.sknp 0) (State.reset.setReg 0 255#8)) = some .keyIndexRange ∧
    cause (exec (.addI 0) ({ State.reset with i := 0xFFFF#16 }.setReg 0 1#8)) = some .indexOverflow := by decide

/-- Each of the four clauses: a cycle that writes ST, one that writes DT, one that writes neither, timers 0 and 255. -/
theorem witness_TimersDecayOnEveryCompletedCycle :
    ((mach 0xF218#16 [(2, 1#8)]).fetch.bind decodeWord = some (.ldStVx 2)) ∧
    ((mach 0xF015#16 [(0, 255#8)]).fetch.bind decodeWord = some (.ldDtVx 0)) ∧
    after (step (mach 0xF015#16 [(0, 255#8)])) (fun t => (t.fault, t.dt, t.st)) = some (none, 254#8, 0#8) ∧
    after (step { mach 0x0000#16 [] with dt := 255#8, st := 1#8 }) (fun t => (t.fault, t.dt, t.st)) =
      some (none, 254#8, 0#8) := by decide

/-- An instruction that is none of those named, with a next state, from a state with a key pressed; and one that can
fault and does. -/
theorem witness_whole_machine_frames :
    after (exec (.jp 0xAAA#12) (State.reset.setKeyLine 15 true)) (fun t => (t.pc, t.keyLine 15)) =
      some (0xAAA#16, true) ∧
    (¬ MayWriteReg 15 (.jp 0xAAA#12) ∧ ¬ MayWritePc (.ldImm 0 1#8) ∧ MayFault .ret) ∧
    after (exec .ret State.reset) (·.fault.isSome) = some true := by
  refine ⟨by decide, ⟨id, id, trivial⟩, by decide⟩

/-- The same for the statements on the random draw, the sound timer and `must_draw`. -/
theorem witness_noninterference :
    after (exec (.addReg 1 2) { State.reset with drawIndex := 9, st := 200#8, mustDraw := true })
      (fun t => (t.pc, t.st, t.mustDraw)) = some (0x202#16, 199#8, true) := by decide

theorem witness_CallPushesAndJumps :
    ({ State.reset with sp := 0#8 } : State).sp.toNat < 16 ∧ ({ State.reset with sp := 15#8 } : State).sp.toNat < 16 ∧
    ({ State.reset with sp := 16#8 } : State).sp.toNat = 16 ∧
    Faults (.call 0x300#12) { State.reset with sp := 16#8 } .stackOverflow :=
  ⟨by decide, by decide, by decide, rfl⟩

theorem witness_ReturnPopsAndJumps :
    ({ State.reset with sp := 1#8 } : State).sp.toNat = (0 : Fin 16).val + 1 ∧
    ({ State.reset with sp := 16#8 } : State).sp.toNat = (15 : Fin 16).val + 1 ∧ State.reset.sp.toNat = 0 := by decide

theorem witness_SkipIfRegistersDiffer : (1#4 ≠ 0#4 ∧ 15#4 ≠ 0#4) ∧ decodeWord 0x9121#16 = none := by decide

/-- The destination is VF, or is not; the same for the second operand. -/
theorem witness_registers_with_and_without_VF : ((14 : RegIdx) ≠ 15) ∧ ((15 : RegIdx) = 15) := by decide

theorem witness_AddToIndexOrOverflow :
    let s (b : Byte) : State := { State.reset with i := 0xFF00#16 }.setReg 0 b
    let u : State := { State.reset with i := 0xFFFF#16 }.setReg 0 1#8
    (s 0xFF#8).i.toNat + ((s 0xFF#8).reg 0).toNat ≤ 0xFFFF ∧ 0xFFFF < u.i.toNat + (u.reg 0).toNat := by decide

theorem witness_PointAtGlyphOrFault :
    ((State.reset.setReg 0 15#8).reg 0).toNat ≤ 15 ∧ 15 < ((State.reset.setReg 0 16#8).reg 0).toNat := by decide

theorem witness_StoreDecimalDigits :
    ({ State.reset with i := 0xFFD#16 } : State).i.toNat + 2 ≤ 0xFFF ∧
    0xFFF < ({ State.reset with i := 0xFFE#16 } : State).i.toNat + 2 := by decide

/-- For LD [I],Vx and LD Vx,[I]: the last block that fits, of one register and of sixteen, and the first that does not. -/
theorem witness_StoreRegistersAtIndex_LoadRegistersFromIndex :
    ({ State.reset with i := 0xFFF#16 } : State).i.toNat + (0 : RegIdx).val ≤ 0xFFF ∧
    ({ State.reset with i := 0xFF0#16 } : State).i.toNat + (15 : RegIdx).val ≤ 0xFFF ∧
    0xFFF < ({ State.reset with i := 0x1000#16 } : State).i.toNat + (0 : RegIdx).val ∧
    0xFFF < ({ State.reset with i := 0xFF1#16 } : State).i.toNat + (15 : RegIdx).val := by decide

/-- Each form at the last place it can stand, with the block over both bytes of the next word; IM23, and LD B,Vx with
digits that make a word (V1 = 0x7B: 01 02 03). The block may also cover the second byte alone, or none. -/
theorem witness_StoredWordIsFetchedNext :
    let s : State := { (State.reset.setReg 0 0x12#8).setReg 1 0x34#8 with pc := 0xFFC#16, i := 0xFFE#16 }
    let u : State := { State.reset.setReg 1 0x7B#8 with pc := 0xFFB#16, i := 0xFFD#16 }
    (s.pc.toNat + 3 ≤ 0xFFF ∧ s.i.toNat + (1 : RegIdx).val ≤ 0xFFF ∧ u.pc.toNat + 3 ≤ 0xFFF ∧ u.i.toNat + 2 ≤ 0xFFF) ∧
    after (exec (.ldMemVx 1) s) State.fetch = some (some 0x1234#16) ∧
    after (exec (.ldB 1) u) State.fetch = some (some 0x0102#16) ∧
    after (exec (.ldMemVx 0) { s with i := 0xFFF#16 }) State.fetch = some (some 0x0012#16) ∧
    after (exec (.ldMemVx 0) { s with i := 0x300#16 }) State.fetch = some (some 0x0000#16) := by decide

/-- A sprite of one set bit at the last byte of memory, over a cell that is as given. -/
def oneBit (on : Bool) : State :=
  { machI 0xD011#16 [] 0xFFF#16 [0x80#8] with fb := if on then State.reset.fb.toggle 0 0 else State.reset.fb }

/-- The last block that fits, an empty one at any `I`, and the first that does not; a cell under a set bit, on and off,
and a cell under none. -/
theorem witness_DrawTogglesTheSpriteCells :
    BlockInMemory (oneBit true) 1 ∧ BlockInMemory { oneBit true with i := 0xFFFF#16 } 0 ∧
    (0 < (2#4).toNat ∧ 0xFFF < (oneBit true).i.toNat + ((2#4).toNat - 1)) ∧
    SpriteSets (oneBit true) 0 1 1#4 0 0 ∧ (oneBit true).fb.cell 0 0 = true ∧
    SpriteSets (oneBit false) 0 1 1#4 0 0 ∧ (oneBit false).fb.cell 0 0 = false ∧
    ¬ SpriteSets (oneBit false) 0 1 1#4 1 0 := by
  refine ⟨.inr (by decide), .inl rfl, by decide, ⟨0, 0, by decide, by decide, by decide, by decide, by decide⟩, by decide,
    ⟨0, 0, by decide, by decide, by decide, by decide, by decide⟩, by decide, ?_⟩
  rintro ⟨r, c, hr, -, -, h, -⟩
  have h0 : r = 0 := by simpa using hr
  subst h0
  revert h
  decide

/-- Both clauses on the second draw: the cell off, and every cell under a set bit on. -/
theorem witness_DrawingTwiceRestoresTheScreen :
    BlockInMemory (oneBit false) (1#4).toNat ∧ (SpriteSets (oneBit false) 0 1 1#4 0 0 ∧ (oneBit false).fb.cell 0 0 = false) ∧
    BlockInMemory (oneBit true) (0#4).toNat ∧ ∀ row col, SpriteSets (oneBit true) 0 1 0#4 row col → (oneBit true).fb.cell row col = true :=
  ⟨.inr (by decide), ⟨⟨0, 0, by decide, by decide, by decide, by decide, by decide⟩, by decide⟩, .inl rfl,
    fun _ _ ⟨_, _, h, _⟩ => absurd h (by simp)⟩

theorem witness_DrawChangesCellCount : BlockInMemory (oneBit true) (1#4).toNat ∧ BlockInMemory (oneBit true) (0#4).toNat :=
  ⟨.inr (by decide), .inl rfl⟩

/-- SKP and SKNP: the first line and the last, and the first value that names none. -/
theorem witness_SkipIfKeyPressedConsumes_SkipIfKeyNotPressedConsumes :
    (State.reset.reg 0).toNat = (0 : KeyIdx).val ∧ ((State.reset.setReg 0 15#8).reg 0).toNat = (15 : KeyIdx).val ∧
    15 < ((State.reset.setReg 0 16#8).reg 0).toNat := by decide

/-- The last line pressed alone, and no line pressed. -/
theorem witness_WaitForKeyTakesTheLowest :
    ((State.reset.setKeyLine 15 true).keyLine 15 = true ∧ ∀ j : KeyIdx, j < 15 → (State.reset.setKeyLine 15 true).keyLine j = false) ∧
    ∀ k, State.reset.keyLine k = false := by decide

theorem witness_StalledWaitOnlyRunsTheTimersDown :
    let s : State := { mach 0xFA0A#16 [] with dt := 3#8 }
    s.halted = false ∧ s.fault = none ∧ s.fetch.bind decodeWord = some (.ldVxK 10) ∧ ∀ k, s.keyLine k = false := by decide

theorem witness_HostEventsTouchOnlyTheirField : (14 : KeyIdx) ≠ 15 := by decide

/-- Images of the limit and one byte more. -/
theorem witness_LoadsCopyImagesOfLegalSize :
    (List.replicate 80 0xFF#8).length ≤ 80 ∧ 80 < (List.replicate 81 0xFF#8).length ∧
    (List.replicate 3583 0xFF#8).length ≤ 3583 ∧ 3583 < (List.replicate 3584 0xFF#8).length := by
  simp only [List.length_replicate]
  decide

theorem witness_LaunchDoesNotDependOnLoadOrder :
    (List.replicate 80 0xFF#8).length ≤ 80 ∧ (List.replicate 3583 0xFF#8).length ≤ 3583 := by
  simp only [List.length_replicate]
  decide

/-- Each clause: before and after the first cycle; with a load missing, halted, or faulted; after a failed load; and a
running machine with both loads. -/
theorem witness_HostOperationsKeepTheContract :
    ((loaded 0x6001#16).bind (·.perform .cycle)).map (·.cycled) = some true ∧
    Block.construct.cycled = false ∧ Block.construct.fontLoaded = false ∧ Block.construct.programLoaded = false ∧
    (Block.construct.perform .halt).map (·.machine.halted) = some true ∧
    ((loaded 0x00EE#16).bind (·.perform .cycle)).map (·.machine.fault.isSome) = some true ∧
    (loaded 0x6001#16).map (fun b => (b.fontLoaded, b.programLoaded, b.loadFailed, b.machine.halted, b.machine.fault)) =
      some (true, true, none, false, none) := by decide

/-- A load one byte too long is noted, and the machine stays as it was. -/
theorem witness_failed_load :
    Block.construct.perform (.loadFont (List.replicate 81 0#8)) =
      some { Block.construct with loadFailed := some .fontTooLarge } := rfl

/-- Images of legal size, the empty ones too; a state with the invariant; an operation that has a step. -/
theorem witness_HostOperationsKeepInvariant :
    ([0xF0#8].length ≤ 80 ∧ ([] : List Byte).length ≤ 3583) ∧ State.reset.Inv ∧
    (Block.construct.perform (.loadProgram [0x12#8, 0x00#8])).map (·.machine.mem) = some [(0x200, 0x12#8)] :=
  ⟨by decide, ⟨by decide, by decide, by decide, by decide, by intro r h; cases h⟩, by decide⟩

end Sys2Proof.Tests
end

/-! SUPPORT. The field views and the dispatch key of a word, read from the word as a number: a mask of low ones is a
remainder (30_encoding R72), and the top nibble fixes the mask of the key (30_encoding R74). -/

namespace Sys2Proof.Proofs.Encoding

section Word
variable (w : Word)

/-- A mask of `k` low ones leaves the remainder by `2 ^ k`. -/
theorem toNat_and_lowMask {m : Word} (k : Nat) (hm : m.toNat = 2 ^ k - 1) : (w &&& m).toNat = w.toNat % 2 ^ k := by
  rw [BitVec.toNat_and, hm, Nat.and_two_pow_sub_one_eq_mod]

/-- A mask that is `k` low ones once shifted down by `s`: the `k` bits from bit `s` up. -/
theorem toNat_and_mask_ushiftRight {m : Word} (s k : Nat) (hm : (m >>> s).toNat = 2 ^ k - 1) :
    ((w &&& m) >>> s).toNat = w.toNat / 2 ^ s % 2 ^ k := by
  rw [BitVec.ushiftRight_and_distrib, toNat_and_lowMask _ k hm, BitVec.toNat_ushiftRight, Nat.shiftRight_eq_div_pow]

theorem setWidth_fieldNNN : (fieldNNN w).setWidth 16 = w &&& 0x0FFF#16 := by
  apply BitVec.eq_of_toNat_eq
  rw [BitVec.toNat_setWidth, toNat_fieldNNN, toNat_and_lowMask w 12 rfl]
  omega

theorem setWidth_fieldKK : (fieldKK w).setWidth 16 = w &&& 0x00FF#16 := by
  apply BitVec.eq_of_toNat_eq
  rw [BitVec.toNat_setWidth, toNat_fieldKK, toNat_and_lowMask w 8 rfl]
  omega

theorem setWidth_fieldN : (fieldN w).setWidth 16 = w &&& 0x000F#16 := by
  apply BitVec.eq_of_toNat_eq
  rw [BitVec.toNat_setWidth, toNat_fieldN, toNat_and_lowMask w 4 rfl]
  omega

theorem ofNat_val_fieldX : BitVec.ofNat 16 (fieldX w).val = (w &&& 0x0F00#16) >>> 8 := by
  apply BitVec.eq_of_toNat_eq
  rw [BitVec.toNat_ofNat, val_fieldX, toNat_and_mask_ushiftRight w 8 4 rfl]
  omega

theorem ofNat_val_fieldY : BitVec.ofNat 16 (fieldY w).val = (w &&& 0x00F0#16) >>> 4 := by
  apply BitVec.eq_of_toNat_eq
  rw [BitVec.toNat_ofNat, val_fieldY, toNat_and_mask_ushiftRight w 4 4 rfl]
  omega

/-- The key through the top nibble as a number: once the number is known, its mask computes. -/
theorem dispatchId_of_topNibble {w : Word} {k : Nat} (h : w.toNat / 0x1000 = k) :
    dispatchId w = w &&& dispatchMask (BitVec.ofNat 4 k) := by
  have hT : fieldT w = BitVec.ofNat 4 k := by rw [← h, ← toNat_fieldT, BitVec.ofNat_toNat, BitVec.setWidth_eq]
  rw [dispatchId, hT]

/-- The top nibbles R74 lists under "otherwise". -/
theorem dispatchMask_single :
    ∀ k ∈ [0x1, 0x2, 0x3, 0x4, 0x5, 0x6, 0x7, 0xA, 0xB, 0xC, 0xD], dispatchMask (BitVec.ofNat 4 k) = 0xF000#16 := by
  decide

end Word

/-- Settles O4: the top nibble picks the mask, and the mask of top nibble 0 is all ones. -/
theorem dispatchKeyMasksByTopNibble : Obligations.DispatchKeyMasksByTopNibble := by
  unfold Obligations.DispatchKeyMasksByTopNibble
  intro w
  refine ⟨fun h => ?zero, ?alu, ?upper, fun h => ?single⟩
  case zero => exact (dispatchId_of_topNibble h).trans BitVec.and_allOnes
  case alu =>
    rintro (h | h)
    · exact dispatchId_of_topNibble h
    · exact dispatchId_of_topNibble h
  case upper =>
    rintro (h | h)
    · exact dispatchId_of_topNibble h
    · exact dispatchId_of_topNibble h
  case single => rw [dispatchId_of_topNibble rfl, dispatchMask_single _ h]

/-- Settles O5, a lemma for each view. -/
theorem fieldViewsAreMasksAndShifts : Obligations.FieldViewsAreMasksAndShifts := by
  unfold Obligations.FieldViewsAreMasksAndShifts
  exact fun w =>
    ⟨setWidth_fieldNNN w, setWidth_fieldKK w, setWidth_fieldN w, ofNat_val_fieldX w, ofNat_val_fieldY w⟩

end Sys2Proof.Proofs.Encoding

/-! SUPPORT. The timers over a cycle: what a handler leaves in ST and DT, whatever it runs, and the one decrement of each
that ends a cycle without a fault (40_cycle R96). -/

namespace Sys2Proof.Proofs.Cycle

open Sys2Proof.Machine

/-- ST as the cycle's handler leaves it, before the decay: LD ST,Vx alone writes it (45_timers_keypad R193). -/
def stBeforeDecay (t : State) : Option Instr → Byte
  | some (.ldStVx x) => t.reg x
  | _                => t.st

/-- DT as the cycle's handler leaves it, before the decay: LD DT,Vx alone writes it (45_timers_keypad R192). -/
def dtBeforeDecay (t : State) : Option Instr → Byte
  | some (.ldDtVx x) => t.reg x
  | _                => t.dt

/-- A handler's answer, unless it is a fault, has these timers. -/
def LeavesTimers (st dt : Byte) : Handled → Prop
  | .ok u    => u.st = st ∧ u.dt = dt
  | .raise _ => True

section Timers
variable (s : State) {st dt : Byte}

theorem stBeforeDecay_of_ne {o : Option Instr} (h : ∀ x, o ≠ some (.ldStVx x)) : stBeforeDecay s o = s.st := by
  unfold stBeforeDecay
  split
  · exact absurd rfl (h _)
  · rfl

theorem dtBeforeDecay_of_ne {o : Option Instr} (h : ∀ x, o ≠ some (.ldDtVx x)) : dtBeforeDecay s o = s.dt := by
  unfold dtBeforeDecay
  split
  · exact absurd rfl (h _)
  · rfl

/-- The advance of `pc` comes before the handler and reaches no timer and no register. -/
theorem stBeforeDecay_advance (o : Option Instr) : stBeforeDecay s.advance o = stBeforeDecay s o := by
  unfold stBeforeDecay
  split <;> rfl

theorem dtBeforeDecay_advance (o : Option Instr) : dtBeforeDecay s.advance o = dtBeforeDecay s o := by
  unfold dtBeforeDecay
  split <;> rfl

theorem skipIf_leavesTimers (c : Bool) : LeavesTimers s.st s.dt (.ok (skipIf c s)) := by
  cases c <;> exact ⟨rfl, rfl⟩

theorem withBlock_leavesTimers (len : Nat) {e : State} (h : LeavesTimers st dt (.ok e)) :
    LeavesTimers st dt (withBlock s len e) := by
  obtain ⟨-, he⟩ | ⟨-, he⟩ := withBlock_cases s len e <;> rw [he]
  · exact h
  · trivial

theorem withKey_leavesTimers (x : RegIdx) {e : KeyIdx → State} (h : ∀ k, LeavesTimers st dt (.ok (e k))) :
    LeavesTimers st dt (withKey s x e) := by
  obtain ⟨k, -, he⟩ | ⟨-, he⟩ := withKey_cases s x e <;> rw [he]
  · exact h k
  · trivial

theorem setRegs_leavesTimers (k : Nat) (bs : List Byte) : LeavesTimers s.st s.dt (.ok (s.setRegs k bs)) := by
  obtain ⟨v, hv⟩ := setRegs_frame bs s k
  rw [hv]
  exact ⟨rfl, rfl⟩

/-- No handler but those of the two timer loads writes a timer, on any of its paths. -/
theorem handlerOf_leavesTimers (i : Instr) :
    LeavesTimers (stBeforeDecay s (some i)) (dtBeforeDecay s (some i)) (handlerOf i s) := by
  cases i with
  | seImm | sneImm | seReg | sneReg => exact skipIf_leavesTimers s _
  | drw | ldB | ldMemVx => exact withBlock_leavesTimers s _ ⟨rfl, rfl⟩
  | ldVxMem => exact withBlock_leavesTimers s _ (setRegs_leavesTimers s _ _)
  | skp | sknp =>
    refine withKey_leavesTimers s _ fun k => ?_
    split <;> exact ⟨rfl, rfl⟩
  | ret =>
    rw [handlerOf, handleRet]
    split
    · exact ⟨rfl, rfl⟩
    · trivial
  | call =>
    rw [handlerOf, handleCall]
    split
    · exact ⟨rfl, rfl⟩
    · trivial
  | addI =>
    rw [handlerOf, handleAddI]
    split
    · trivial
    · exact ⟨rfl, rfl⟩
  | ldF =>
    rw [handlerOf, handleLdF]
    split
    · trivial
    · exact ⟨rfl, rfl⟩
  | ldVxK =>
    rw [handlerOf, handleLdVxK]
    split <;> exact ⟨rfl, rfl⟩
  | _ => exact ⟨rfl, rfl⟩

end Timers

/-- An instruction that completes leaves both timers one below what its handler left in them, floored at 0. -/
theorem exec_timers {i : Instr} {s t : State} (h : exec i s = .next t) (hf : t.fault = none) :
    t.st.toNat = (stBeforeDecay s (some i)).toNat - 1 ∧ t.dt.toNat = (dtBeforeDecay s (some i)).toNat - 1 := by
  obtain ⟨u, hu, rfl⟩ | ⟨c, -, rfl⟩ := exec_cases h
  · have hl := handlerOf_leavesTimers s.advance i
    rw [hu, stBeforeDecay_advance, dtBeforeDecay_advance] at hl
    obtain ⟨hst, hdt⟩ := hl
    rw [← hst, ← hdt]
    exact ⟨toNat_decayTimer u.st, toNat_decayTimer u.dt⟩
  · cases hf

/-- The same of a whole step, the no-op of an unassigned word included. -/
theorem step_timers {s t : State} (h : step s = .next t) (hf : t.fault = none) :
    t.st.toNat = (stBeforeDecay s (s.fetch.bind decodeWord)).toNat - 1 ∧
    t.dt.toNat = (dtBeforeDecay s (s.fetch.bind decodeWord)).toNat - 1 := by
  obtain ⟨-, ⟨-, rfl⟩ | ⟨w, hw, hd, rfl⟩ | ⟨w, i, hw, hd, he⟩⟩ := step_cases h
  · cases hf
  · rw [hw, Option.bind_some, hd]
    exact ⟨toNat_decayTimer s.st, toNat_decayTimer s.dt⟩
  · rw [hw, Option.bind_some, hd]
    exact exec_timers he hf

/-- Settles O17, from the timers a completed step leaves: each clause says what the handler had left before the decay. -/
theorem timersDecayOnEveryCompletedCycle : Obligations.TimersDecayOnEveryCompletedCycle := by
  unfold Obligations.TimersDecayOnEveryCompletedCycle
  intro s t h hf
  obtain ⟨hst, hdt⟩ := step_timers h hf
  refine ⟨fun x hx => ?stWritten, fun hne => ?stKept, fun x hx => ?dtWritten, fun hne => ?dtKept⟩
  case stWritten => rw [hst, hx, stBeforeDecay]
  case stKept => rw [hst, stBeforeDecay_of_ne s hne]
  case dtWritten => rw [hdt, hx, dtBeforeDecay]
  case dtKept => rw [hdt, dtBeforeDecay_of_ne s hne]

/-- Settles O9: the machine is running and its fetch answers the word, so the step is the dispatch on the word. -/
theorem stepRunsTheDecodedInstruction : Obligations.StepRunsTheDecodedInstruction := by
  unfold Obligations.StepRunsTheDecodedInstruction
  intro s w i hh hf hpc hw hd
  have hr : s.runState = .running := (runState_eq_running s).2 ⟨hh, hf⟩
  have hfetch : s.fetch = some w := (fetch_eq_some s w).2 ⟨hpc, hw⟩
  rw [step_of_fetch hr hfetch, hd]

end Sys2Proof.Proofs.Cycle

/-! SUPPORT. Decoder and encoder against each other, both by the dispatch key (30_encoding R74 to R78), and the
assembler lines (30_encoding R80, R81). -/

namespace Sys2Proof.Proofs.Codec

open Sys2Proof.Laws

/-- The row lemmas of the dispatch key as one: the id of every encoded word (30_encoding R76). -/
theorem dispatchId_encode : ∀ i : Instr, dispatchId (encode i) = rowId i
  | .cls => DispatchKey.cls
  | .ret => DispatchKey.ret
  | .jp a => DispatchKey.jp a
  | .call a => DispatchKey.call a
  | .seImm x k => DispatchKey.seImm x k
  | .sneImm x k => DispatchKey.sneImm x k
  | .seReg x y g => DispatchKey.seReg x y g
  | .sneReg x y => DispatchKey.sneReg x y
  | .ldImm x k => DispatchKey.ldImm x k
  | .addImm x k => DispatchKey.addImm x k
  | .ldReg x y => DispatchKey.ldReg x y
  | .orReg x y => DispatchKey.orReg x y
  | .andReg x y => DispatchKey.andReg x y
  | .xorReg x y => DispatchKey.xorReg x y
  | .addReg x y => DispatchKey.addReg x y
  | .subReg x y => DispatchKey.subReg x y
  | .shr x g => DispatchKey.shr x g
  | .subnReg x y => DispatchKey.subnReg x y
  | .shl x g => DispatchKey.shl x g
  | .ldI a => DispatchKey.ldI a
  | .jpV0 a => DispatchKey.jpV0 a
  | .rnd x k => DispatchKey.rnd x k
  | .drw x y n => DispatchKey.drw x y n
  | .skp x => DispatchKey.skp x
  | .sknp x => DispatchKey.sknp x
  | .ldVxDt x => DispatchKey.ldVxDt x
  | .ldDtVx x => DispatchKey.ldDtVx x
  | .ldStVx x => DispatchKey.ldStVx x
  | .addI x => DispatchKey.addI x
  | .ldF x => DispatchKey.ldF x
  | .ldB x => DispatchKey.ldB x
  | .ldMemVx x => DispatchKey.ldMemVx x
  | .ldVxMem x => DispatchKey.ldVxMem x
  | .ldVxK x => DispatchKey.ldVxK x

/-- The word's key finds the row of the instruction, and the fields put into the word are read from it. -/
theorem decodeWord_encode (i : Instr) : decodeWord (encode i) = some i := by
  rw [decodeWord, dispatchId_encode]
  cases i with
  | cls | ret => rfl
  | jp | call | ldI | jpV0 => exact congrArg some (congrArg _ (fieldNNN_wordNNN _ _))
  | seImm | sneImm | ldImm | addImm | rnd =>
    exact congrArg some (congrArg₂ _ (fieldX_wordXKK _ _ _) (fieldKK_wordXKK _ _ _))
  | sneReg | ldReg | orReg | andReg | xorReg | addReg | subReg | subnReg =>
    exact congrArg some (congrArg₂ _ (fieldX_wordXYN _ _ _ _) (fieldY_wordXYN _ _ _ _))
  | shr | shl => exact congrArg some (congrArg₂ _ (fieldX_wordXYN _ _ _ _) (fieldYBits_wordXYN _ _ _ _))
  | seReg | drw => simp [decodeTable, decodeTableSingle, decodeTableAlu, decodeTableUpper, rowId, encode]
  | _ => exact congrArg some (congrArg _ (fieldX_wordXKK _ _ _))

theorem decodeBytes_encodeBytes (i : Instr) (rest : List Byte) :
    decodeBytes (encodeBytes i ++ rest) = .ok (i, rest) := by
  simp [encodeBytes, decodeBytes, decodeWord_encode]

/-- Settles O1, on words and on bytes. -/
theorem decodeOfEncodeReturnsInstruction : Obligations.DecodeOfEncodeReturnsInstruction := by
  unfold Obligations.DecodeOfEncodeReturnsInstruction
  exact fun i => ⟨decodeWord_encode i, decodeBytes_encodeBytes i⟩

section Key
variable {w : Word} {t n : Nibble} {kk : Byte}

/-- Every mask of R74 keeps the top nibble. -/
theorem fieldT_dispatchId (w : Word) : fieldT (dispatchId w) = fieldT w := by
  have hm : ∀ t, fieldT (dispatchMask t) = 0xF#4 := by decide
  rw [dispatchId, fieldT, BitVec.extractLsb'_and]
  exact (congrArg _ (hm _)).trans (nibble_and_ones _)

/-- The key of the `t x y n` words of a top nibble that the mask 0xF00F goes with. -/
theorem dispatchId_of_aluMask (h : dispatchMask (fieldT w) = 0xF00F#16) :
    dispatchId w = wordXYN (fieldT w) 0 0#4 (fieldN w) := by
  conv_lhs => rw [← word_eq_nibbles w]
  exact dispatchId_alu _ _ _ _ h

theorem wordXKK_fields (w : Word) : wordXKK (fieldT w) (fieldX w) (fieldKK w) = w := by
  apply BitVec.eq_of_toNat_eq
  rw [toNat_wordXKK, toNat_fieldT, val_fieldX, toNat_fieldKK]
  omega

theorem wordNNN_fields (w : Word) : wordNNN (fieldT w) (fieldNNN w) = w := by
  apply BitVec.eq_of_toNat_eq
  rw [toNat_wordNNN, toNat_fieldT, toNat_fieldNNN]
  omega

theorem dispatchId_of_upperMask (h : dispatchMask (fieldT w) = 0xF0FF#16) :
    dispatchId w = wordXKK (fieldT w) 0 (fieldKK w) := by
  conv_lhs => rw [← wordXKK_fields w]
  exact dispatchId_upper _ _ _ h

theorem dispatchId_of_singleMask (h : dispatchMask (fieldT w) = 0xF000#16) :
    dispatchId w = wordXYN (fieldT w) 0 0#4 0#4 := by
  conv_lhs => rw [← word_eq_nibbles w]
  exact dispatchId_single _ _ _ _ h

/-- The top nibble of a word is that of its key. -/
theorem fieldT_of_key {id : Word} (h : dispatchId w = id) : fieldT w = fieldT id := by
  rw [← h, fieldT_dispatchId]

/-- In families 8 and 9 the key holds both outer nibbles of the word. -/
theorem word_of_aluKey (hm : dispatchMask t = 0xF00F#16) (h : dispatchId w = wordXYN t 0 0#4 n) :
    wordXYN t (fieldX w) (fieldYBits w) n = w := by
  have ht : fieldT w = t := (fieldT_of_key h).trans (fieldT_wordXYN _ _ _ _)
  subst ht
  have hn : fieldN w = n := by
    rw [← fieldN_wordXYN (fieldT w) 0 0#4 (fieldN w), ← dispatchId_of_aluMask hm, h, fieldN_wordXYN]
  rw [← hn, word_eq_nibbles]

/-- In families E and F the key holds all but the `x` nibble of the word. -/
theorem word_of_upperKey (hm : dispatchMask t = 0xF0FF#16) (h : dispatchId w = wordXKK t 0 kk) :
    wordXKK t (fieldX w) kk = w := by
  have ht : fieldT w = t := (fieldT_of_key h).trans (fieldT_wordXKK _ _ _)
  subst ht
  have hk : fieldKK w = kk := by
    rw [← fieldKK_wordXKK (fieldT w) 0 (fieldKK w), ← dispatchId_of_upperMask hm, h, fieldKK_wordXKK]
  rw [← hk, wordXKK_fields]

/-- With top nibble 0 the key is the word. -/
theorem word_of_zeroKey {id : Word} (ht : fieldT id = 0#4) (h : dispatchId w = id) : id = w := by
  rw [← h, dispatchId, fieldT_of_key h, ht]
  exact BitVec.and_allOnes

theorem wordXYN_of_singleKey (h : dispatchId w = wordXYN t 0 0#4 0#4) :
    wordXYN t (fieldX w) (fieldYBits w) (fieldN w) = w := by
  rw [← (fieldT_of_key h).trans (fieldT_wordXYN _ _ _ _), word_eq_nibbles]

theorem wordXKK_of_singleKey (h : dispatchId w = wordXYN t 0 0#4 0#4) : wordXKK t (fieldX w) (fieldKK w) = w := by
  rw [← (fieldT_of_key h).trans (fieldT_wordXYN _ _ _ _), wordXKK_fields]

theorem wordNNN_of_singleKey (h : dispatchId w = wordXYN t 0 0#4 0#4) : wordNNN t (fieldNNN w) = w := by
  rw [← (fieldT_of_key h).trans (fieldT_wordXYN _ _ _ _), wordNNN_fields]

end Key

/-- The row's instruction encodes every word with the row's id back (30_encoding R76). -/
def RowEncodesBack (row : Word × (Word → Instr)) : Prop := ∀ w, dispatchId w = row.1 → encode (row.2 w) = w

theorem decodeTableSingle_encodesBack : ∀ row ∈ decodeTableSingle, RowEncodesBack row := by
  simp only [decodeTableSingle, List.forall_mem_cons]
  refine ⟨?cls, ?ret, ?jp, ?call, ?seImm, ?sneImm, ?seReg, ?sneReg, ?ldImm, ?addImm, by simp⟩
  case cls => exact fun w h => word_of_zeroKey (id := 0x00E0#16) rfl h
  case ret => exact fun w h => word_of_zeroKey (id := 0x00EE#16) rfl h
  case jp | call => exact fun w h => wordNNN_of_singleKey h
  case seReg => exact fun w h => wordXYN_of_singleKey h
  case sneReg => exact fun w h => word_of_aluKey rfl h
  all_goals exact fun w h => wordXKK_of_singleKey h

theorem decodeTableAlu_encodesBack : ∀ row ∈ decodeTableAlu, RowEncodesBack row := by
  simp only [decodeTableAlu, List.forall_mem_cons]
  refine ⟨?_, ?_, ?_, ?_, ?_, ?_, ?_, ?_, ?_, by simp⟩
  all_goals exact fun w h => word_of_aluKey rfl h

theorem decodeTableUpper_encodesBack : ∀ row ∈ decodeTableUpper, RowEncodesBack row := by
  simp only [decodeTableUpper, List.forall_mem_cons]
  refine ⟨?ldI, ?jpV0, ?rnd, ?drw, ?skp, ?sknp, by simp⟩
  case ldI | jpV0 => exact fun w h => wordNNN_of_singleKey h
  case rnd => exact fun w h => wordXKK_of_singleKey h
  case drw => exact fun w h => wordXYN_of_singleKey h
  case skp | sknp => exact fun w h => word_of_upperKey rfl h

theorem decodeTableF_encodesBack : ∀ row ∈ decodeTableF, RowEncodesBack row := by
  simp only [decodeTableF, List.forall_mem_cons]
  refine ⟨?_, ?_, ?_, ?_, ?_, ?_, ?_, ?_, ?_, by simp⟩
  all_goals exact fun w h => word_of_upperKey rfl h

theorem decodeTable_encodesBack : ∀ row ∈ decodeTable, RowEncodesBack row := by
  simp only [decodeTable, List.forall_mem_append]
  exact ⟨⟨⟨decodeTableSingle_encodesBack, decodeTableAlu_encodesBack⟩, decodeTableUpper_encodesBack⟩,
    decodeTableF_encodesBack⟩

/-- Settles O2: the instruction is the one of a row of the table with the word's id. -/
theorem encodeOfDecodeReturnsWord : Obligations.EncodeOfDecodeReturnsWord := by
  unfold Obligations.EncodeOfDecodeReturnsWord
  intro w i h
  obtain ⟨row, hrow, rfl⟩ := Option.map_eq_some_iff.1 h
  have hid : row.1 = dispatchId w := by simpa using List.find?_some hrow
  exact decodeTable_encodesBack row (List.mem_of_find?_eq_some hrow) w hid.symm

/-- The id column of the table (30_encoding R76). -/
def assignedIds : List Word :=
  [0x00E0#16, 0x00EE#16, 0x1000#16, 0x2000#16, 0x3000#16, 0x4000#16, 0x5000#16, 0x9000#16, 0x6000#16, 0x7000#16,
   0x8000#16, 0x8001#16, 0x8002#16, 0x8003#16, 0x8004#16, 0x8005#16, 0x8006#16, 0x8007#16, 0x800E#16,
   0xA000#16, 0xB000#16, 0xC000#16, 0xD000#16, 0xE09E#16, 0xE0A1#16,
   0xF007#16, 0xF015#16, 0xF018#16, 0xF01E#16, 0xF029#16, 0xF033#16, 0xF055#16, 0xF065#16, 0xF00A#16]

theorem map_fst_decodeTable : decodeTable.map Prod.fst = assignedIds := rfl

/-- A word is unassigned when no row has its id (30_encoding R75, R78). -/
theorem decodeWord_eq_none (w : Word) : decodeWord w = none ↔ dispatchId w ∉ assignedIds := by
  rw [← map_fst_decodeTable, decodeWord, Option.map_eq_none_iff, List.find?_eq_none, List.mem_map]
  simp only [beq_iff_eq, not_exists, not_and]

/-- The ids of top nibble 0, as words. -/
theorem absent_of_topNibble_zero {w : Word} (h : fieldT w = 0x0#4) :
    w ∉ assignedIds ↔ w ≠ 0x00E0#16 ∧ w ≠ 0x00EE#16 := by
  have hids : assignedIds.filter (fieldT · = 0x0#4) = [0x00E0#16, 0x00EE#16] := rfl
  have hw : w ∈ assignedIds ↔ w ∈ assignedIds.filter (fieldT · = 0x0#4) := by simp [h]
  rw [hw, hids]
  simp

/-- The ids of family 8, by their low nibble. -/
theorem aluId8_absent : ∀ n : Nibble, wordXYN 0x8#4 0 0#4 n ∉ assignedIds ↔
    n ∈ [0x8#4, 0x9#4, 0xA#4, 0xB#4, 0xC#4, 0xD#4, 0xF#4] := by decide

theorem aluId9_absent : ∀ n : Nibble, wordXYN 0x9#4 0 0#4 n ∉ assignedIds ↔ n ≠ 0x0#4 := by decide

/-- The ids of a top nibble that are `t 0 kk` words, by their low byte. -/
theorem upperId_absent {t : Nibble} {kks : List Byte}
    (h : assignedIds.filter (fieldT · = t) = kks.map (wordXKK t 0)) (kk : Byte) :
    wordXKK t 0 kk ∉ assignedIds ↔ kk ∉ kks := by
  have hinj : Function.Injective (wordXKK t 0) := fun a b hab => by
    rw [← fieldKK_wordXKK t 0 a, hab, fieldKK_wordXKK]
  rw [← List.mem_map_of_injective hinj, ← h]
  simp

/-- Every single-nibble family has its id in the table. -/
theorem singleId_assigned : ∀ t : Nibble, dispatchMask t = 0xF000#16 → wordXYN t 0 0#4 0#4 ∈ assignedIds := by
  decide

theorem dispatchMask_otherwise :
    ∀ t : Nibble, t ≠ 0x0#4 → t ≠ 0x8#4 → t ≠ 0x9#4 → t ≠ 0xE#4 → t ≠ 0xF#4 → dispatchMask t = 0xF000#16 := by decide

/-- Settles O3: the top nibble says which bits of the word the key holds, and which of the ids can be met. -/
theorem unassignedWordsAreThoseListed : Obligations.UnassignedWordsAreThoseListed := by
  unfold Obligations.UnassignedWordsAreThoseListed
  intro w
  rw [decodeWord_eq_none]
  by_cases h0 : fieldT w = 0x0#4
  · have hid : dispatchId w = w := word_of_zeroKey ((fieldT_dispatchId w).trans h0) rfl
    rw [hid, absent_of_topNibble_zero h0]
    simp [h0]
  by_cases h8 : fieldT w = 0x8#4
  · rw [dispatchId_of_aluMask (by rw [h8]; rfl), h8, aluId8_absent]
    simp
  by_cases h9 : fieldT w = 0x9#4
  · rw [dispatchId_of_aluMask (by rw [h9]; rfl), h9, aluId9_absent]
    simp
  by_cases hE : fieldT w = 0xE#4
  · rw [dispatchId_of_upperMask (by rw [hE]; rfl), hE, upperId_absent (kks := [0x9E#8, 0xA1#8]) rfl]
    simp
  by_cases hF : fieldT w = 0xF#4
  · rw [dispatchId_of_upperMask (by rw [hF]; rfl), hF,
      upperId_absent (kks := [0x07#8, 0x15#8, 0x18#8, 0x1E#8, 0x29#8, 0x33#8, 0x55#8, 0x65#8, 0x0A#8]) rfl]
    simp
    tauto
  · have hm := dispatchMask_otherwise _ h0 h8 h9 hE hF
    have hin := singleId_assigned _ hm
    rw [← dispatchId_of_singleMask hm] at hin
    simp [hin, h0, h8, h9, hE, hF]

/-- Settles O6: the words are fixed, so the decoder is run on each. -/
theorem wordsOfTheSpecDecode : Obligations.WordsOfTheSpecDecode := by
  unfold Obligations.WordsOfTheSpecDecode
  decide

/-! The assembler lines. -/

@[simp] theorem asmReg_val (x : RegIdx) : asmReg x.val = some x := dif_pos x.isLt

@[simp] theorem asmBits_toNat {width : Nat} (b : BitVec width) : asmBits width b.toNat = some b := by
  rw [asmBits, if_pos b.isLt, BitVec.ofNat_toNat, BitVec.setWidth_eq]

/-- The row is picked from the mnemonic and the shapes of the operands; their numbers come back as they were. -/
theorem toInstr_toAsm (i : Instr) : i.toAsm.toInstr = some i.plain := by
  cases i <;> simp [Instr.toAsm, AsmLine.toInstr, Instr.plain]

/-- Every operand of an instruction fits its field, because its type has the field's width. -/
theorem inRange_toAsm (i : Instr) : i.toAsm.operands.all AsmOperand.inRange = true := by
  cases i <;> simp [Instr.toAsm, AsmOperand.inRange] <;> omega

/-- Settles O7: the picked row makes the line well formed, its operands being in range. -/
theorem assemblerPicksTheRow : Obligations.AssemblerPicksTheRow := by
  unfold Obligations.AssemblerPicksTheRow
  intro i
  refine ⟨toInstr_toAsm i, ?_⟩
  rw [AsmLine.wellFormed, inRange_toAsm, toInstr_toAsm]
  rfl

end Sys2Proof.Proofs.Codec

/-! SUPPORT. What every instruction may write, said once for its handler, and what follows for its whole cycle: the
parts it leaves alone, its registers, its faults (10_state R23 to R35; 60_exceptions R210, R211). -/

namespace Sys2Proof.Proofs.Frame

open Sys2Proof.Machine

/-- A handler's answer: what holds of the state it leaves, or of the cause it raises. -/
def Meets (P : State → Prop) (Q : FaultCause → Prop) : Handled → Prop
  | .ok u    => P u
  | .raise c => Q c

section Meets
variable {P : State → Prop} {Q : FaultCause → Prop} (t : State)

theorem Meets.ok {h : Handled} {u : State} (hm : Meets P Q h) (hu : h = .ok u) : P u := by rw [hu] at hm; exact hm

theorem Meets.raise {h : Handled} {c : FaultCause} (hm : Meets P Q h) (hc : h = .raise c) : Q c := by
  rw [hc] at hm; exact hm

theorem withBlock_meets (len : Nat) {e : State} (hok : BlockInMemory t len → P e)
    (hraise : ¬ BlockInMemory t len → Q .memoryBounds) : Meets P Q (withBlock t len e) := by
  obtain ⟨hb, he⟩ | ⟨hb, he⟩ := withBlock_cases t len e <;> rw [he]
  · exact hok hb
  · exact hraise hb

theorem withKey_meets (x : RegIdx) {e : KeyIdx → State} (hok : ∀ k, P (e k))
    (hraise : 15 < (t.reg x).toNat → Q .keyIndexRange) : Meets P Q (withKey t x e) := by
  obtain ⟨k, -, he⟩ | ⟨hk, he⟩ := withKey_cases t x e <;> rw [he]
  · exact hok k
  · exact hraise hk

end Meets

/-- The parts an instruction may write, beside the registers, `pc` and the decrement of the timers (10_state R26 to
R35). -/
def writes : Instr → List Part
  | .call _                      => [.stackSlots, .stackPointer]
  | .ret                         => [.stackPointer]
  | .ldI _ | .addI _ | .ldF _    => [.index]
  | .cls                         => [.framebuffer]
  | .drw _ _ _                   => [.framebuffer, .mustDraw]
  | .ldB _ | .ldMemVx _          => [.memory]
  | .skp _ | .sknp _             => [.keypad]
  | .ldDtVx _                    => [.delayTimer]
  | .ldStVx _                    => [.soundTimer]
  | _                            => []

/-- A part is the same data in both states. -/
def SamePart (t u : State) : Part → Prop
  | .memory       => u.mem = t.mem
  | .index        => u.i = t.i
  | .stackSlots   => u.stack = t.stack
  | .stackPointer => u.sp = t.sp
  | .delayTimer   => u.dt = t.dt
  | .soundTimer   => u.st = t.st
  | .keypad       => u.key = t.key
  | .framebuffer  => u.fb = t.fb
  | .mustDraw     => u.mustDraw = t.mustDraw
  | .halted       => u.halted = t.halted
  | .fault        => u.fault = t.fault

/-- The state a handler leaves differs from the one it was given only in what its instruction may write. -/
structure FramedBy (i : Instr) (t u : State) : Prop where
  parts : ∀ p, p ∉ writes i → SamePart t u p
  regs  : ∀ j, ¬ MayWriteReg j i → u.reg j = t.reg j
  pc    : ¬ MayWritePc i → u.pc = t.pc

section Handler
variable {i : Instr} (t : State)

/-- A state that differs in the written parts alone. -/
theorem framedBy_of_parts {u : State} (hp : ∀ p, p ∉ writes i → SamePart t u p) (hv : u.v = t.v) (hpc : u.pc = t.pc) :
    FramedBy i t u :=
  ⟨hp, fun j _ => by rw [State.reg, hv, State.reg], fun _ => hpc⟩

theorem framedBy_setReg {x : RegIdx} (b : Byte) (hx : MayWriteReg x i) : FramedBy i t (t.setReg x b) where
  parts p _ := by cases p <;> rfl
  regs j hj := State.reg_setReg_of_ne t b fun h => hj (h ▸ hx)
  pc _ := rfl

theorem framedBy_flagThenResult (f : Byte) {x : RegIdx} (res : State → Byte) (hf : MayWriteReg vf i)
    (hx : MayWriteReg x i) : FramedBy i t (flagThenResult t f x res) where
  parts p _ := by cases p <;> rfl
  regs j hj := by rw [flagThenResult_reg, if_neg fun h : x = j => hj (h ▸ hx),
    if_neg fun h : vf = j => hj (h ▸ hf)]
  pc _ := rfl

theorem framedBy_setPc (pc : Word) (h : MayWritePc i) : FramedBy i t { t with pc := pc } where
  parts p _ := by cases p <;> rfl
  regs _ _ := rfl
  pc hpc := absurd h hpc

theorem framedBy_skipIf (c : Bool) (h : MayWritePc i) : FramedBy i t (skipIf c t) := by
  cases c
  · exact framedBy_setPc t t.pc h
  · exact framedBy_setPc t (t.pc + 2#16) h

theorem framedBy_setIndex (a : Word) (h : .index ∈ writes i) : FramedBy i t { t with i := a } :=
  framedBy_of_parts t (fun p hp => by cases p with | index => exact absurd h hp | _ => rfl) rfl rfl

theorem framedBy_setMem (m : Memory) (h : .memory ∈ writes i) : FramedBy i t { t with mem := m } :=
  framedBy_of_parts t (fun p hp => by cases p with | memory => exact absurd h hp | _ => rfl) rfl rfl

/-- The keypad instructions write a line, `pc`, or both. -/
theorem framedBy_setKeyPc (key : Vector Bool 16) (pc : Word) (h : .keypad ∈ writes i) (hpc : MayWritePc i) :
    FramedBy i t { t with key := key, pc := pc } where
  parts p hp := by cases p with | keypad => exact absurd h hp | _ => rfl
  regs _ _ := rfl
  pc hn := absurd hpc hn

theorem framedBy_drawSprite (x y : RegIdx) (n : Nibble) : FramedBy (.drw x y n) t (drawSprite x y n t) where
  parts p hp := by
    cases p with
    | framebuffer | mustDraw => exact absurd (by simp [writes]) hp
    | _ => rfl
  regs _ hj := State.reg_setReg_of_ne t _ (Ne.symm hj)
  pc _ := rfl

theorem framedBy_setRegs (x : RegIdx) :
    FramedBy (.ldVxMem x) t (t.setRegs 0 (t.mem.readBytes t.i.toNat (x.val + 1))) := by
  have hlen : (t.mem.readBytes t.i.toNat (x.val + 1)).length = x.val + 1 := Memory.length_readBytes _ _ _
  obtain ⟨v, hv⟩ := setRegs_frame (t.mem.readBytes t.i.toNat (x.val + 1)) t 0
  refine ⟨fun p _ => ?parts, fun j hj => ?regs, fun _ => ?pc⟩
  case parts => rw [hv]; cases p <;> rfl
  case regs =>
    have hj : ¬ j.val ≤ x.val := hj
    rw [setRegs_reg _ _ _ (by omega), dif_neg (by omega)]
  case pc => rw [hv]

/-- What every handler may change, and which instructions may fault. -/
theorem handlerOf_framedBy (i : Instr) : Meets (FramedBy i t) (fun _ => MayFault i) (handlerOf i t) := by
  cases i with
  | cls =>
    exact framedBy_of_parts t
      (fun p hp => by cases p with | framebuffer => exact absurd (by simp [writes]) hp | _ => rfl) rfl rfl
  | ret =>
    rw [handlerOf, handleRet]
    split
    · refine ⟨fun p hp => ?_, fun _ _ => rfl, fun hn => absurd trivial hn⟩
      cases p with
      | stackPointer => exact absurd (by simp [writes]) hp
      | _ => rfl
    · trivial
  | call =>
    rw [handlerOf, handleCall]
    split
    · refine ⟨fun p hp => ?_, fun _ _ => rfl, fun hn => absurd trivial hn⟩
      cases p with
      | stackSlots | stackPointer => exact absurd (by simp [writes]) hp
      | _ => rfl
    · trivial
  | jp | jpV0 => exact framedBy_setPc t _ trivial
  | seImm | sneImm | seReg | sneReg => exact framedBy_skipIf t _ trivial
  | ldImm | addImm | ldReg | orReg | andReg | xorReg | rnd | ldVxDt => exact framedBy_setReg t _ rfl
  | addReg | subReg | subnReg | shr | shl => exact framedBy_flagThenResult t _ _ (.inl rfl) (.inr rfl)
  | ldI => exact framedBy_setIndex t _ (by simp [writes])
  | addI =>
    rw [handlerOf, handleAddI]
    split
    · trivial
    · exact framedBy_setIndex t _ (by simp [writes])
  | ldF =>
    rw [handlerOf, handleLdF]
    split
    · trivial
    · exact framedBy_setIndex t _ (by simp [writes])
  | drw => exact withBlock_meets t _ (fun _ => framedBy_drawSprite t _ _ _) fun _ => trivial
  | ldB | ldMemVx => exact withBlock_meets t _ (fun _ => framedBy_setMem t _ (by simp [writes])) fun _ => trivial
  | ldVxMem => exact withBlock_meets t _ (fun _ => framedBy_setRegs t _) fun _ => trivial
  | skp =>
    refine withKey_meets t _ (fun k => ?_) fun _ => trivial
    split
    · exact framedBy_setKeyPc t _ _ (by simp [writes]) trivial
    · exact framedBy_setKeyPc t t.key t.pc (by simp [writes]) trivial
  | sknp =>
    refine withKey_meets t _ (fun k => ?_) fun _ => trivial
    split
    · exact framedBy_setKeyPc t _ t.pc (by simp [writes]) trivial
    · exact framedBy_setKeyPc t t.key _ (by simp [writes]) trivial
  | ldDtVx =>
    exact framedBy_of_parts t
      (fun p hp => by cases p with | delayTimer => exact absurd (by simp [writes]) hp | _ => rfl) rfl rfl
  | ldStVx =>
    exact framedBy_of_parts t
      (fun p hp => by cases p with | soundTimer => exact absurd (by simp [writes]) hp | _ => rfl) rfl rfl
  | ldVxK =>
    rw [handlerOf, handleLdVxK]
    split
    · exact framedBy_setReg t _ rfl
    · exact framedBy_setPc t _ trivial

end Handler

section Cycle
variable {i : Instr} {s t u : State}

/-- The advance of `pc` before the handler reaches no part and no register. -/
theorem FramedBy.of_advance (h : FramedBy i s.advance u) :
    (∀ p, p ∉ writes i → SamePart s u p) ∧ (∀ j, ¬ MayWriteReg j i → u.reg j = s.reg j) ∧
    (¬ MayWritePc i → u.pc = s.pc + 2#16) :=
  ⟨fun p hp => by cases p <;> exact h.parts _ hp, h.regs, h.pc⟩

/-- A part that a handler leaves as data is left alone by the cycle, which only decrements the timers. -/
theorem leftAlone_endCycle {p : Part} (h : SamePart s u p) : p.LeftAlone s u.endCycle := by
  cases p with
  | memory => exact fun a => congrArg (Memory.read · a) h
  | stackSlots => exact fun j => congrArg (fun v : Vector Word 16 => v[j.val]) h
  | keypad => exact fun k => congrArg (fun v : Vector Bool 16 => v[k.val]) h
  | framebuffer => exact fun row col => congrArg (Framebuffer.cell · row col) h
  | delayTimer => exact (toNat_decayTimer u.dt).trans (congrArg (BitVec.toNat · - 1) h)
  | soundTimer => exact (toNat_decayTimer u.st).trans (congrArg (BitVec.toNat · - 1) h)
  | _ => exact h

/-- The frame of a cycle whose handler completes: the parts. -/
theorem leavesAllBut_writes (h : handlerOf i s.advance = .ok u) : LeavesAllBut (writes i) s u.endCycle :=
  fun p hp => leftAlone_endCycle (((handlerOf_framedBy _ i).ok h).of_advance.1 p hp)

/-- The frame of a cycle whose handler completes: the registers. -/
theorem regsKeptBut_mayWrite (h : handlerOf i s.advance = .ok u) : RegsKeptBut (MayWriteReg · i) s u.endCycle :=
  ((handlerOf_framedBy _ i).ok h).of_advance.2.1

/-- The frame of a cycle whose handler completes: `pc`, but for the control transfers and LD Vx,K (10_state R24). -/
theorem pc_endCycle (h : handlerOf i s.advance = .ok u) (hpc : ¬ MayWritePc i) : u.endCycle.pc = s.pc + 2#16 :=
  ((handlerOf_framedBy _ i).ok h).of_advance.2.2 hpc

/-- No handler writes the fault record. -/
theorem fault_endCycle (h : handlerOf i s.advance = .ok u) : u.endCycle.fault = s.fault :=
  leavesAllBut_writes h .fault (by cases i <;> simp [writes])

/-- A handler's fault is the fault of the instruction. -/
theorem faults_of_raise {c : FaultCause} (h : handlerOf i s.advance = .raise c) : Faults i s c := exec_raise h

/-! Which instructions write which part. -/

theorem stackSlots_mem_writes : .stackSlots ∈ writes i ↔ ∃ nnn, i = .call nnn := by cases i <;> simp [writes]

theorem stackPointer_mem_writes : .stackPointer ∈ writes i ↔ (∃ nnn, i = .call nnn) ∨ i = .ret := by
  cases i <;> simp [writes]

theorem index_mem_writes : .index ∈ writes i ↔ (∃ nnn, i = .ldI nnn) ∨ ∃ x, i = .addI x ∨ i = .ldF x := by
  cases i <;> simp [writes]

theorem framebuffer_mem_writes : .framebuffer ∈ writes i ↔ i = .cls ∨ ∃ x y n, i = .drw x y n := by
  cases i <;> simp [writes]

theorem mustDraw_mem_writes : .mustDraw ∈ writes i ↔ ∃ x y n, i = .drw x y n := by cases i <;> simp [writes]

theorem memory_mem_writes : .memory ∈ writes i ↔ ∃ x, i = .ldB x ∨ i = .ldMemVx x := by cases i <;> simp [writes]

theorem keypad_mem_writes : .keypad ∈ writes i ↔ ∃ x, i = .skp x ∨ i = .sknp x := by cases i <;> simp [writes]

theorem delayTimer_mem_writes : .delayTimer ∈ writes i ↔ ∃ x, i = .ldDtVx x := by cases i <;> simp [writes]

theorem soundTimer_mem_writes : .soundTimer ∈ writes i ↔ ∃ x, i = .ldStVx x := by cases i <;> simp [writes]

end Cycle

end Sys2Proof.Proofs.Frame

/-! SUPPORT. The statements over all instructions and all steps: who writes what, which faults there are, what a step
keeps, and what is read by none (10_state, 40_cycle, 60_exceptions). -/

namespace Sys2Proof.Proofs.Steps

open Sys2Proof.Machine Sys2Proof.Proofs.Frame

/-- Settles O18: a cycle that completes is framed part by part, and one that faults writes the record alone. -/
theorem eachPartHasItsWriters : Obligations.EachPartHasItsWriters := by
  unfold Obligations.EachPartHasItsWriters
  intro i s t h
  obtain ⟨u, hu, rfl⟩ | ⟨c, hc, rfl⟩ := exec_cases h
  case inr =>
    have hf : MayFault i := (handlerOf_framedBy _ i).raise hc
    exact ⟨fun _ _ => rfl, fun _ _ => rfl, fun _ _ => rfl, fun _ _ => rfl, fun _ _ => rfl, fun _ => rfl,
      fun _ _ => rfl, fun _ _ => rfl, rfl, .inr ⟨hf, _, rfl, rfl⟩⟩
  obtain ⟨hparts, -, -⟩ := ((handlerOf_framedBy _ i).ok hu).of_advance
  have hleft := leavesAllBut_writes hu
  refine ⟨regsKeptBut_mayWrite hu, fun h => ?stack, fun h1 h2 => ?sp, fun h1 h2 => ?index, fun h1 h2 => ?fb,
    fun h => ?mustDraw, fun h => ?memory, fun h => ?keypad, hleft .halted (by cases i <;> simp [writes]),
    .inl ⟨fault_endCycle hu, pc_endCycle hu, fun h => ?dt, fun h => ?st⟩⟩
  case stack => exact hleft .stackSlots (by simpa [stackSlots_mem_writes] using h)
  case sp => exact hleft .stackPointer (by simpa [stackPointer_mem_writes] using ⟨h1, h2⟩)
  case index => exact hleft .index (by simpa [index_mem_writes] using ⟨h1, h2⟩)
  case fb => exact hparts .framebuffer (by simpa [framebuffer_mem_writes] using ⟨h1, h2⟩)
  case mustDraw => exact hleft .mustDraw (by simpa [mustDraw_mem_writes] using h)
  case memory => exact hleft .memory (by simpa [memory_mem_writes] using h)
  case keypad => exact hleft .keypad (by simpa [keypad_mem_writes] using h)
  case dt => exact hleft .delayTimer (by simpa [delayTimer_mem_writes] using h)
  case st => exact hleft .soundTimer (by simpa [soundTimer_mem_writes] using h)

/-- A handler presses no line: it keeps the keypad, or it clears the one line that its instruction polls. -/
theorem handlerOf_keyLine (i : Instr) (t : State) (k : KeyIdx) :
    Meets (fun u => u.keyLine k = true → t.keyLine k = true) (fun _ => True) (handlerOf i t) := by
  have hclear : ∀ (v : State) (j : KeyIdx), (v.setKeyLine j false).keyLine k = true → v.keyLine k = true := by
    intro v j
    rw [State.keyLine_setKeyLine]
    split
    · exact fun h => absurd h Bool.false_ne_true
    · exact id
  by_cases hw : .keypad ∈ writes i
  · obtain ⟨x, rfl | rfl⟩ := keypad_mem_writes.1 hw
    · refine withKey_meets t x (fun j => ?_) fun _ => trivial
      split
      · exact hclear t.advance j
      · exact id
    · refine withKey_meets t x (fun j => ?_) fun _ => trivial
      split
      · exact hclear t j
      · exact id
  · cases hh : handlerOf i t with
    | raise c => trivial
    | ok u =>
      have hkey : u.key = t.key := ((handlerOf_framedBy t i).ok hh).parts .keypad hw
      show u.keyLine k = true → t.keyLine k = true
      rw [State.keyLine, hkey]
      exact id

/-- Settles O19, from what the handler does to the line; a fault keeps the keypad. -/
theorem noInstructionPressesAKey : Obligations.NoInstructionPressesAKey := by
  unfold Obligations.NoInstructionPressesAKey
  intro i s t h k
  obtain ⟨u, hu, rfl⟩ | ⟨c, -, rfl⟩ := exec_cases h
  · exact Meets.ok (u := u) (handlerOf_keyLine i s.advance k) hu
  · exact id

/-! The run states and the fetch. -/

/-- Settles O12: a step has a successor from a running state alone, and there always. -/
theorem onlyRunningStatesHaveAStep : Obligations.OnlyRunningStatesHaveAStep := by
  unfold Obligations.OnlyRunningStatesHaveAStep
  exact fun s => ⟨fun ⟨_, h⟩ => (step_cases h).1, fun ⟨hh, hf⟩ => step_of_running hh hf⟩

/-- Settles O10: the cycle of such a word runs no handler between the advance and the decay. -/
theorem unassignedWordIsNoOp : Obligations.UnassignedWordIsNoOp := by
  unfold Obligations.UnassignedWordIsNoOp
  intro s w hh hf hpc hw hd
  have hr : s.runState = .running := (runState_eq_running s).2 ⟨hh, hf⟩
  have hfetch : s.fetch = some w := (fetch_eq_some s w).2 ⟨hpc, hw⟩
  refine ⟨s.advance.endCycle, ?step, ?pc, fun _ _ => rfl, fun p _ => leftAlone_endCycle (by cases p <;> rfl)⟩
  case step =>
    rw [step_of_fetch hr hfetch, hd]
    rfl
  case pc =>
    rw [State.endCycle_pc, State.advance_pc, BitVec.toNat_add]
    have : (2#16).toNat = 2 := rfl
    omega

/-- Settles O11: the machine is running, and its fetch check fails. -/
theorem fetchBeyondMemoryFaults : Obligations.FetchBeyondMemoryFaults := by
  unfold Obligations.FetchBeyondMemoryFaults
  intro s hh hf hpc
  rw [step, (runState_eq_running s).2 ⟨hh, hf⟩, (fetch_eq_none s).2 hpc]
  rfl

/-- Settles O8: the reset state is fixed but for the address, register, line or cell asked for. -/
theorem constructionZeroesAllButPc : Obligations.ConstructionZeroesAllButPc := by
  unfold Obligations.ConstructionZeroesAllButPc
  refine ⟨fun a => ?mem, fun j => ?reg, rfl, rfl, fun j => ?slot, rfl, rfl, rfl, fun k => ?key, fun row col => ?cell,
    rfl, rfl, rfl⟩
  case mem => exact Memory.read_nil a
  case reg => simp [State.reg, State.reset]
  case slot => simp [State.stackSlot, State.reset]
  case key => simp [State.keyLine, State.reset]
  case cell => exact cell_clear row col

/-! The faults. -/

/-- The rows of the fault table (60_exceptions R210) but for the fetch: the instruction, and the condition under which
it raises the cause. -/
def RaisedBy (i : Instr) (t : State) : FaultCause → Prop
  | .stackOverflow  => ¬ t.sp.toNat < 16 ∧ ∃ nnn, i = .call nnn
  | .stackUnderflow => ¬ (0 < t.sp.toNat ∧ t.sp.toNat ≤ 16) ∧ i = .ret
  | .memoryBounds   =>
    (∃ x y n, i = .drw x y n ∧ ¬ BlockInMemory t n.toNat) ∨ (∃ x, i = .ldB x ∧ ¬ BlockInMemory t 3) ∨
    (∃ x, (i = .ldMemVx x ∨ i = .ldVxMem x) ∧ ¬ BlockInMemory t (x.val + 1))
  | .fontDigitRange => ∃ x, i = .ldF x ∧ 15 < (t.reg x).toNat
  | .keyIndexRange  => ∃ x, (i = .skp x ∨ i = .sknp x) ∧ 15 < (t.reg x).toNat
  | .indexOverflow  => ∃ x, i = .addI x ∧ 0xFFFF < t.i.toNat + (t.reg x).toNat
  | .fetchBounds    => False

/-- A handler raises only what its row says. -/
theorem handlerOf_raises (i : Instr) (t : State) : Meets (fun _ => True) (RaisedBy i t) (handlerOf i t) := by
  cases i with
  | ret =>
    rw [handlerOf, handleRet]
    split
    · trivial
    · exact ⟨‹_›, rfl⟩
  | call =>
    rw [handlerOf, handleCall]
    split
    · trivial
    · exact ⟨‹_›, _, rfl⟩
  | addI =>
    rw [handlerOf, handleAddI]
    split
    · exact ⟨_, rfl, ‹_›⟩
    · trivial
  | ldF =>
    rw [handlerOf, handleLdF]
    split
    · exact ⟨_, rfl, ‹_›⟩
    · trivial
  | drw => exact withBlock_meets t _ (fun _ => trivial) fun hb => .inl ⟨_, _, _, rfl, hb⟩
  | ldB => exact withBlock_meets t _ (fun _ => trivial) fun hb => .inr (.inl ⟨_, rfl, hb⟩)
  | ldMemVx => exact withBlock_meets t _ (fun _ => trivial) fun hb => .inr (.inr ⟨_, .inl rfl, hb⟩)
  | ldVxMem => exact withBlock_meets t _ (fun _ => trivial) fun hb => .inr (.inr ⟨_, .inr rfl, hb⟩)
  | skp => exact withKey_meets t _ (fun _ => trivial) fun hk => ⟨_, .inl rfl, hk⟩
  | sknp => exact withKey_meets t _ (fun _ => trivial) fun hk => ⟨_, .inr rfl, hk⟩
  | ldVxK =>
    rw [handlerOf, handleLdVxK]
    split <;> trivial
  | _ => trivial

/-- The conditions read `sp`, `I` and the registers, which the advance keeps. -/
theorem raisedBy_of_advance {i : Instr} {s : State} {c : FaultCause} (h : RaisedBy i s.advance c) : RaisedBy i s c := by
  cases c <;> exact h

theorem not_blockInMemory_iff {t : State} {len : Nat} :
    ¬ BlockInMemory t len ↔ 0 < len ∧ 0xFFF < t.i.toNat + (len - 1) := by
  rw [BlockInMemory]
  omega

/-- No instruction raises the fault of the fetch. -/
theorem not_raise_fetchBounds {i : Instr} {t : State} : handlerOf i t ≠ .raise .fetchBounds :=
  fun h => (handlerOf_raises i t).raise h

/-- Settles O16: the row of the handler's cause, its condition read at the state before the advance. -/
theorem faultsAreThoseOfTheTable : Obligations.FaultsAreThoseOfTheTable := by
  unfold Obligations.FaultsAreThoseOfTheTable
  intro i s t r hsp hf h hr
  obtain ⟨u, hu, rfl⟩ | ⟨c, hc, rfl⟩ := exec_cases h
  · rw [fault_endCycle hu, hf] at hr
    cases hr
  · obtain rfl := Option.some.inj hr
    have hrow := raisedBy_of_advance ((handlerOf_raises i s.advance).raise hc)
    cases c with
    | fetchBounds => exact hrow.elim
    | stackOverflow =>
      obtain ⟨hfull, hi⟩ := hrow
      exact .inl ⟨rfl, by omega, hi⟩
    | stackUnderflow =>
      obtain ⟨hempty, hi⟩ := hrow
      exact .inr (.inl ⟨rfl, by omega, hi⟩)
    | memoryBounds =>
      refine .inr (.inr (.inl ⟨rfl, ?_⟩))
      obtain ⟨x, y, n, hi, hb⟩ | ⟨x, hi, hb⟩ | ⟨x, hi, hb⟩ := hrow
      · obtain ⟨hn, hlast⟩ := not_blockInMemory_iff.1 hb
        exact .inl ⟨x, y, n, hi, hn, by omega⟩
      · exact .inr (.inl ⟨x, hi, (not_blockInMemory_iff.1 hb).2⟩)
      · exact .inr (.inr ⟨x, hi, (not_blockInMemory_iff.1 hb).2⟩)
    | fontDigitRange => exact .inr (.inr (.inr (.inl ⟨rfl, hrow⟩)))
    | keyIndexRange => exact .inr (.inr (.inr (.inr (.inl ⟨rfl, hrow⟩))))
    | indexOverflow => exact .inr (.inr (.inr (.inr (.inr ⟨rfl, hrow⟩))))

/-- Settles O15: a faulting step is a failed fetch or a handler's fault. -/
theorem faultingCycleChangesOnlyFault : Obligations.FaultingCycleChangesOnlyFault := by
  unfold Obligations.FaultingCycleChangesOnlyFault
  intro s t r hf h hr
  obtain ⟨-, ⟨hpc, rfl⟩ | ⟨w, -, -, rfl⟩ | ⟨w, i, hw, hd, he⟩⟩ := step_cases h
  · obtain rfl := Option.some.inj hr
    exact ⟨rfl, rfl, fun _ => ⟨rfl, rfl⟩, fun hle => by omega⟩
  · exact absurd (hf.symm.trans hr) (by simp)
  · obtain ⟨u, hu, rfl⟩ | ⟨c, -, rfl⟩ := exec_cases he
    · rw [fault_endCycle hu, hf] at hr
      cases hr
    · obtain rfl := Option.some.inj hr
      obtain ⟨hle, hword⟩ := (fetch_eq_some s w).1 hw
      have hew : encode i = w := Codec.encodeOfDecodeReturnsWord w i hd
      exact ⟨rfl, rfl, fun hgt => by omega, fun _ => ⟨w, by rw [hew], hword⟩⟩

/-! What no instruction reads. -/

/-- The state with another sound timer, `must_draw` and number of the random draw. -/
def withUnread (b : Byte) (d : Bool) (k : Nat) (t : State) : State := { t with st := b, mustDraw := d, drawIndex := k }

/-- A handler's answer with its state changed. -/
def mapState (f : State → State) : Handled → Handled
  | .ok u    => .ok (f u)
  | .raise c => .raise c

section Unread
variable (t : State) (b : Byte) (d : Bool) (k : Nat)

/-- What is left of the other sound timer and `must_draw`: LD ST,Vx and DRW write over them. -/
def afterUnread (i : Instr) (u : State) : State :=
  withUnread (if .soundTimer ∈ writes i then u.st else b) (if .mustDraw ∈ writes i then u.mustDraw else d) k u

theorem setRegs_withUnread (bs : List Byte) (j : Nat) :
    (withUnread b d k t).setRegs j bs = withUnread b d k (t.setRegs j bs) := by
  induction bs generalizing t j with
  | nil => rfl
  | cons c bs ih => exact ih (t.setReg (Fin.ofNat 16 j) c) (j + 1)

theorem skipIf_withUnread (c : Bool) : skipIf c (withUnread b d k t) = withUnread b d k (skipIf c t) := by
  cases c <;> rfl

theorem withBlock_map (f : State → State) (len : Nat) (e : State) :
    (mapState f (withBlock t len e)) = withBlock t len (f e) := by
  rw [withBlock, withBlock]
  split <;> rfl

theorem withKey_map (f : State → State) (x : RegIdx) (e : KeyIdx → State) :
    mapState f (withKey t x e) = withKey t x (f ∘ e) := by
  rw [withKey, withKey]
  split <;> rfl

/-- A handler given another sound timer, `must_draw` and, unless it is RND's, another draw answers the same but for
these. -/
theorem handlerOf_withUnread (i : Instr) (hk : (∀ x kk, i ≠ .rnd x kk) ∨ k = t.drawIndex) :
    handlerOf i (withUnread b d k t) = mapState (afterUnread b d k i) (handlerOf i t) := by
  cases i with
  | rnd x kk =>
    obtain rfl : k = t.drawIndex := hk.resolve_left fun h => h x kk rfl
    rfl
  | ret =>
    simp only [handlerOf, handleRet, apply_dite (mapState _)]
    rfl
  | call =>
    simp only [handlerOf, handleCall, apply_dite (mapState _)]
    rfl
  | seImm | sneImm | seReg | sneReg => exact congrArg Handled.ok (skipIf_withUnread t b d k _)
  | addI =>
    simp only [handlerOf, handleAddI, apply_ite (mapState _)]
    rfl
  | ldF =>
    simp only [handlerOf, handleLdF, apply_ite (mapState _)]
    rfl
  | drw | ldB | ldMemVx =>
    refine Eq.trans ?_ (withBlock_map t _ _ _).symm
    rfl
  | ldVxMem =>
    refine Eq.trans ?_ (withBlock_map t _ _ _).symm
    exact congrArg (withBlock t _) (setRegs_withUnread t b d k _ _)
  | skp | sknp =>
    refine Eq.trans (congrArg (withKey t _) ?_) (withKey_map t _ _ _).symm
    funext j
    simp only [Function.comp, apply_ite (afterUnread _ _ _ _)]
    rfl
  | ldVxK =>
    have hl : (withUnread b d k t).lowestPressed = t.lowestPressed := rfl
    simp only [handlerOf, handleLdVxK, hl]
    cases t.lowestPressed <;> rfl
  | _ => rfl

/-- No handler writes the number of the draw: with nothing changed before it, its answer is its own. -/
theorem drawIndex_of_handlerOf {i : Instr} {v u : State} (h : handlerOf i v = .ok u) : u.drawIndex = v.drawIndex := by
  have hh : handlerOf i v = mapState (afterUnread v.st v.mustDraw v.drawIndex i) (handlerOf i v) :=
    handlerOf_withUnread v v.st v.mustDraw v.drawIndex i (.inr rfl)
  rw [h] at hh
  have hu : u = afterUnread v.st v.mustDraw v.drawIndex i u := Handled.ok.inj hh
  exact (congrArg State.drawIndex hu).trans rfl

/-- The same of the whole cycle; what was not changed before it is not changed after it. -/
theorem exec_withUnread {i : Instr} {s t : State} (hk : (∀ x kk, i ≠ .rnd x kk) ∨ k = s.drawIndex)
    (h : exec i s = .next t) :
    ∃ b' d' k', exec i (withUnread b d k s) = .next (withUnread b' d' k' t) ∧
      (b = s.st → b' = t.st) ∧ (d = s.mustDraw → d' = t.mustDraw) ∧ (k = s.drawIndex → k' = t.drawIndex) := by
  have hh := handlerOf_withUnread s.advance b d k i hk
  obtain ⟨u, hu, rfl⟩ | ⟨c, hc, rfl⟩ := exec_cases h
  · rw [hu] at hh
    obtain ⟨hparts, -, -⟩ := ((handlerOf_framedBy _ i).ok hu).of_advance
    refine ⟨decayTimer (afterUnread b d k i u).st, (afterUnread b d k i u).mustDraw, k + 1,
      exec_ok (u := afterUnread b d k i u) hh, fun hb => congrArg decayTimer ?st, fun hd => ?mustDraw,
      fun hdraw => congrArg (· + 1) ?draw⟩
    case st =>
      show (if .soundTimer ∈ writes i then u.st else b) = u.st
      split
      · rfl
      · exact hb.trans (hparts .soundTimer ‹_›).symm
    case mustDraw =>
      show (if .mustDraw ∈ writes i then u.mustDraw else d) = u.mustDraw
      split
      · rfl
      · exact hd.trans (hparts .mustDraw ‹_›).symm
    case draw => exact hdraw.trans (drawIndex_of_handlerOf hu).symm
  · rw [hc] at hh
    exact ⟨b, d, k, exec_raise hh, id, id, id⟩

end Unread

/-- Settles O20: with the same sound timer and `must_draw`, only the number of the draw is left to differ. -/
theorem randomDrawReachesOnlyRnd : Obligations.RandomDrawReachesOnlyRnd := by
  unfold Obligations.RandomDrawReachesOnlyRnd
  intro i s t k hi h
  obtain ⟨b', d', k', he, hb, hd, -⟩ := exec_withUnread s.st s.mustDraw k (.inl hi) h
  rw [hb rfl, hd rfl] at he
  exact ⟨k', he⟩

/-- Settles O21: with the same draw, only the sound timer and `must_draw` are left to differ. -/
theorem soundTimerAndDrawFlagAreNeverRead : Obligations.SoundTimerAndDrawFlagAreNeverRead := by
  unfold Obligations.SoundTimerAndDrawFlagAreNeverRead
  intro i s t b d h
  obtain ⟨b', d', k', he, -, -, hk⟩ := exec_withUnread b d s.drawIndex (.inr rfl) h
  rw [hk rfl] at he
  exact ⟨b', d', he⟩

end Sys2Proof.Proofs.Steps

/-! SUPPORT. The invariant of the reachable states (10_state R25, R28, R35): it holds after construction, and every step
and every operation of the host keeps it. -/

namespace Sys2Proof.Proofs.Invariant

open Sys2Proof.Machine Sys2Proof.Proofs.Frame Sys2Proof.Proofs.Steps

/-- Settles O13: a fixed state. -/
theorem constructionMeetsInvariant : Obligations.ConstructionMeetsInvariant := by
  unfold Obligations.ConstructionMeetsInvariant
  exact ⟨rfl, by decide, by decide, by decide, fun r h => by cases h⟩

/-- What a handler is given in a cycle from a state with the invariant: `pc` has already advanced (40_cycle R93). -/
structure Ready (t : State) : Prop where
  memory  : t.mem.wf = true
  depth   : t.sp.toNat ≤ 16
  low     : 2 ≤ t.pc.toNat
  high    : t.pc.toNat ≤ 0x1000
  slots   : ∀ j, (t.stackSlot j).toNat ≤ 0x1000
  noFault : t.fault = none

theorem toNat_add_two {a : Word} (h : a.toNat ≤ 0xFFFD) : (a + 2#16).toNat = a.toNat + 2 := by
  rw [BitVec.toNat_add, BitVec.toNat_ofNat]
  omega

/-- The advance after the fetch check (40_cycle R91, R93). -/
theorem ready_advance {s : State} (h : s.Inv) (hf : s.fault = none) (hpc : s.pc.toNat ≤ 0xFFE) : Ready s.advance := by
  have hadd : s.advance.pc.toNat = s.pc.toNat + 2 := toNat_add_two (by omega)
  exact ⟨h.memory, h.depth, by omega, by omega, h.slots, hf⟩

section Handler
variable {t u : State} (h : Ready t)
include h

/-- A handler that writes neither memory nor the stack, from a bound on the `pc` it leaves. -/
theorem Ready.inv (hm : u.mem = t.mem) (hsp : u.sp = t.sp) (hst : u.stack = t.stack) (hf : u.fault = t.fault)
    (hpc : u.pc.toNat ≤ 0x10FE) : u.Inv where
  memory := hm ▸ h.memory
  depth := hsp ▸ h.depth
  target := hpc
  slots j := by rw [State.stackSlot, hst]; exact h.slots j
  record r hr := by rw [hf, h.noFault] at hr; cases hr

/-- The same where the handler leaves `pc` too. -/
theorem Ready.inv_of_pc (hm : u.mem = t.mem) (hsp : u.sp = t.sp) (hst : u.stack = t.stack) (hf : u.fault = t.fault)
    (hpc : u.pc = t.pc) : u.Inv :=
  h.inv hm hsp hst hf (by rw [hpc]; have := h.high; omega)

theorem Ready.inv_advance : t.advance.Inv := by
  have hadd : t.advance.pc.toNat = t.pc.toNat + 2 := toNat_add_two (by have := h.high; omega)
  exact h.inv rfl rfl rfl rfl (by have := h.high; omega)

theorem Ready.inv_skipIf (c : Bool) : (skipIf c t).Inv := by
  cases c
  · exact h.inv_of_pc rfl rfl rfl rfl rfl
  · exact h.inv_advance

/-- A block store inside memory. -/
theorem Ready.inv_writeBytes (bs : List Byte) (hb : BlockInMemory t bs.length) :
    State.Inv { t with mem := t.mem.writeBytes t.i.toNat bs } where
  memory := Memory.wf_writeBytes h.memory bs hb
  depth := h.depth
  target := by have := h.high; exact this.trans (by decide)
  slots := h.slots
  record r hr := by rw [h.noFault] at hr; cases hr

/-- The popped slot is a return address (41_control_flow R111). -/
theorem Ready.inv_ret : Meets State.Inv (fun _ => True) (handleRet t) := by
  rw [handleRet]
  split
  · rename_i hsp
    have hsub : (t.sp - 1#8).toNat ≤ 16 := by bv_omega
    exact ⟨h.memory, hsub, (h.slots _).trans (by decide), h.slots, fun r hr => by rw [h.noFault] at hr; cases hr⟩
  · trivial

/-- The pushed slot is the advanced `pc` (41_control_flow R113). -/
theorem Ready.inv_call (nnn : Addr12) : Meets State.Inv (fun _ => True) (handleCall nnn t) := by
  rw [handleCall]
  split
  · rename_i hsp
    have hadd : (t.sp + 1#8).toNat ≤ 16 := by bv_omega
    have hpc : (nnn.setWidth 16).toNat ≤ 0x10FE := by bv_omega
    refine ⟨h.memory, hadd, hpc, fun j => ?_, fun r hr => by rw [h.noFault] at hr; cases hr⟩
    show ((t.stack.set t.sp.toNat t.pc hsp)[j.val]).toNat ≤ 0x1000
    rw [Vector.getElem_set]
    split
    · exact h.high
    · exact h.slots j
  · trivial

/-- Every handler keeps the invariant where it completes. -/
theorem Ready.inv_handlerOf (i : Instr) : Meets State.Inv (fun _ => True) (handlerOf i t) := by
  cases i with
  | ret => exact h.inv_ret
  | call nnn => exact h.inv_call nnn
  | jp nnn =>
    have hpc : (nnn.setWidth 16).toNat ≤ 0x10FE := by bv_omega
    exact h.inv rfl rfl rfl rfl hpc
  | jpV0 nnn =>
    have hpc : (narrow16 ((t.reg 0).toNat + nnn.toNat)).toNat ≤ 0x10FE := by
      rw [narrow16, BitVec.toNat_ofNat]
      omega
    exact h.inv rfl rfl rfl rfl hpc
  | seImm | sneImm | seReg | sneReg => exact h.inv_skipIf _
  | addI =>
    rw [handlerOf, handleAddI]
    split
    · trivial
    · exact h.inv_of_pc rfl rfl rfl rfl rfl
  | ldF =>
    rw [handlerOf, handleLdF]
    split
    · trivial
    · exact h.inv_of_pc rfl rfl rfl rfl rfl
  | drw => exact withBlock_meets t _ (fun _ => h.inv_of_pc rfl rfl rfl rfl rfl) fun _ => trivial
  | ldB => exact withBlock_meets t _ (fun hb => h.inv_writeBytes _ hb) fun _ => trivial
  | ldMemVx x =>
    exact withBlock_meets t _ (fun hb => h.inv_writeBytes _ (by rwa [length_regsUpTo])) fun _ => trivial
  | ldVxMem x =>
    refine withBlock_meets t _ (fun _ => ?_) fun _ => trivial
    obtain ⟨v, hv⟩ := setRegs_frame (t.mem.readBytes t.i.toNat (x.val + 1)) t 0
    rw [hv]
    exact h.inv_of_pc rfl rfl rfl rfl rfl
  | skp =>
    refine withKey_meets t _ (fun k => ?_) fun _ => trivial
    split
    · exact h.inv rfl rfl rfl rfl h.inv_advance.target
    · exact h.inv_of_pc rfl rfl rfl rfl rfl
  | sknp =>
    refine withKey_meets t _ (fun k => ?_) fun _ => trivial
    split
    · exact h.inv_of_pc rfl rfl rfl rfl rfl
    · exact h.inv_advance
  | ldVxK =>
    rw [handlerOf, handleLdVxK]
    split
    · exact h.inv_of_pc rfl rfl rfl rfl rfl
    · have hpc : (t.pc - 2#16).toNat ≤ 0x10FE := by
        have hlow := h.low
        have hhigh := h.high
        bv_omega
      exact h.inv rfl rfl rfl rfl hpc
  | _ => exact h.inv_of_pc rfl rfl rfl rfl rfl

end Handler

/-- The invariant looks at no timer. -/
theorem inv_endCycle {u : State} (h : u.Inv) : u.endCycle.Inv := ⟨h.memory, h.depth, h.target, h.slots, h.record⟩

/-- A fault taken with a true record. -/
theorem inv_takeFault {s : State} {c : FaultCause} {w : Option Word} (h : s.Inv) (hw : w = none ↔ c = .fetchBounds)
    (hc : c = .fetchBounds ↔ 0xFFE < s.pc.toNat) : (s.takeFault c w).Inv :=
  ⟨h.memory, h.depth, h.target, h.slots, fun r hr => by obtain rfl := Option.some.inj hr; exact ⟨rfl, hw, hc⟩⟩

/-- Settles O14: after the fetch check the handler keeps the invariant, and each fault has a true record. -/
theorem stepKeepsInvariant : Obligations.StepKeepsInvariant := by
  unfold Obligations.StepKeepsInvariant
  intro s t h ht
  obtain ⟨⟨-, hf⟩, ⟨hpc, rfl⟩ | ⟨w, hw, -, rfl⟩ | ⟨w, i, hw, -, he⟩⟩ := step_cases ht
  case inl => exact inv_takeFault h (by simp) (by simpa using hpc)
  case inr.inl =>
    have hr := ready_advance h hf ((fetch_eq_some s w).1 hw).1
    exact inv_endCycle (hr.inv_of_pc rfl rfl rfl rfl rfl)
  case inr.inr =>
    have hpc := ((fetch_eq_some s w).1 hw).1
    obtain ⟨u, hu, rfl⟩ | ⟨c, hc, rfl⟩ := exec_cases he
    · exact inv_endCycle (((ready_advance h hf hpc).inv_handlerOf i).ok hu)
    · have hne : c ≠ .fetchBounds := fun hb => not_raise_fetchBounds (hb ▸ hc)
      exact inv_takeFault h (by simp [hne]) (by simp [hne]; omega)

/-! The host. -/

/-- Another memory in canonical form, and parts the invariant does not look at, may change. -/
theorem inv_of_eq_but_mem {s t : State} (h : s.Inv) (hm : t.mem.wf = true) (hsp : t.sp = s.sp) (hpc : t.pc = s.pc)
    (hst : t.stack = s.stack) (hf : t.fault = s.fault) : t.Inv where
  memory := hm
  depth := hsp ▸ h.depth
  target := hpc ▸ h.target
  slots j := by rw [State.stackSlot, hst]; exact h.slots j
  record r hr := by rw [FaultRecord.TrueOf, hpc]; exact h.record r (hf ▸ hr)

theorem inv_loadFont {s t : State} {font : List Byte} (h : s.Inv) (hl : s.loadFont font = .ok t) : t.Inv := by
  obtain ⟨hm, ht⟩ := wf_loadFont hl h.memory
  rw [ht]
  exact inv_of_eq_but_mem h hm rfl rfl rfl rfl

theorem inv_loadProgram {s t : State} {program : List Byte} (h : s.Inv) (hl : s.loadProgram program = .ok t) :
    t.Inv := by
  obtain ⟨hm, ht⟩ := wf_loadProgram hl h.memory
  rw [ht]
  exact inv_of_eq_but_mem h hm rfl rfl rfl rfl

theorem inv_keyEvent {s : State} (h : s.Inv) (k : KeyIdx) (p : Bool) : (s.keyEvent k p).Inv :=
  inv_of_eq_but_mem h h.memory rfl rfl rfl rfl

theorem inv_ackDraw {s : State} (h : s.Inv) : s.ackDraw.Inv := inv_of_eq_but_mem h h.memory rfl rfl rfl rfl

theorem inv_halt {s : State} (h : s.Inv) : s.halt.Inv := inv_of_eq_but_mem h h.memory rfl rfl rfl rfl

/-- The launch of images of legal size: the two loads one after the other (70_reset_and_hazards R241). -/
theorem launch_ok {font program : List Byte} (hf : font.length ≤ 80) (hp : program.length ≤ 3583) :
    launch font program =
      .ok { State.reset with mem := (State.reset.mem.writeBytes 0x050 font).writeBytes 0x200 program } := by
  have hfont := loadFont_ok State.reset hf
  rw [launch, hfont]
  exact loadProgram_ok _ hp

/-- An operation of the host, by what it can answer. -/
theorem inv_perform {b c : Block} {op : BoundaryOp} (h : b.machine.Inv) (hop : b.perform op = some c) :
    c.machine.Inv := by
  obtain ⟨_, -, -, ⟨s, hs, rfl⟩ | ⟨e, -, rfl⟩⟩ | ⟨_, -, -, ⟨s, hs, rfl⟩ | ⟨e, -, rfl⟩⟩ | ⟨-, -, -, -, s, hs, rfl⟩ |
    ⟨k, p, -, rfl⟩ | ⟨-, rfl⟩ | ⟨-, rfl⟩ := perform_cases hop
  · exact inv_loadFont h hs
  · exact h
  · exact inv_loadProgram h hs
  · exact h
  · exact stepKeepsInvariant _ _ h hs
  · exact inv_keyEvent h k p
  · exact inv_ackDraw h
  · exact inv_halt h

/-- Settles O60: the launch is two loads of the constructed machine, and each operation keeps the invariant. -/
theorem hostOperationsKeepInvariant : Obligations.HostOperationsKeepInvariant := by
  unfold Obligations.HostOperationsKeepInvariant
  refine ⟨fun font program hf hp => ⟨_, launch_ok hf hp, ?_⟩,
    fun s k p h => ⟨inv_keyEvent h k p, inv_ackDraw h, inv_halt h⟩, fun b c op => inv_perform⟩
  exact inv_loadProgram (inv_loadFont constructionMeetsInvariant (loadFont_ok _ hf)) (loadProgram_ok _ hp)

end Sys2Proof.Proofs.Invariant

/-! SUPPORT. The waiting LD Vx,K over any number of steps (70_reset_and_hazards R248), and the operations of the host
(60_exceptions R223 to R231; 70_reset_and_hazards R241, R242). -/

namespace Sys2Proof.Proofs.Boundary

open Sys2Proof.Machine Sys2Proof.Proofs.Frame

/-! The waiting LD Vx,K. -/

/-- The cycle of LD Vx,K with no line pressed: `pc` steps back over the advance, and the end of the cycle is left. -/
theorem exec_ldVxK_of_waiting (x : RegIdx) {s : State} (hk : ∀ k, s.keyLine k = false) :
    exec (.ldVxK x) s = .next s.endCycle := by
  have hnone : s.advance.lowestPressed = none := (lowestPressed_eq_none _).2 hk
  have hpc : s.pc + 2#16 - 2#16 = s.pc := BitVec.add_sub_cancel _ _
  have hh : handlerOf (.ldVxK x) s.advance = .ok { s.advance with pc := s.pc + 2#16 - 2#16 } := by
    rw [handlerOf, handleLdVxK, hnone]
    rfl
  rw [hpc] at hh
  exact exec_ok hh

/-- A machine that runs, fetches LD Vx,K and has no line pressed. -/
structure Waiting (x : RegIdx) (s : State) : Prop where
  running : s.runState = .running
  fetched : s.fetch.bind decodeWord = some (.ldVxK x)
  noKey   : ∀ k, s.keyLine k = false

theorem step_of_waiting {x : RegIdx} {s : State} (h : Waiting x s) : step s = .next s.endCycle := by
  obtain ⟨w, hw, hd⟩ := Option.bind_eq_some_iff.1 h.fetched
  rw [step_of_fetch h.running hw, hd]
  exact exec_ldVxK_of_waiting x h.noKey

/-- The end of a cycle changes nothing the wait rests on. -/
theorem waiting_endCycle {x : RegIdx} {s : State} (h : Waiting x s) : Waiting x s.endCycle :=
  ⟨h.running, h.fetched, h.noKey⟩

/-- A run begins with its first step. -/
theorem run_succ_of_step (M : Host.Core) {s t : M.State} (n : Nat) (h : M.step s = .next t) :
    M.run (n + 1) s = M.run n t := by
  rw [Host.Core.run, h]

/-- A waiting machine does nothing but end cycles. -/
theorem run_of_waiting {x : RegIdx} (n : Nat) {s : State} (h : Waiting x s) :
    Host.Core.run core n s = .next (State.endCycle^[n] s) := by
  induction n generalizing s with
  | zero => rfl
  | succ n ih => exact (run_succ_of_step core n (step_of_waiting h)).trans (ih (waiting_endCycle h))

/-- What the ends of `n` cycles leave: only the timers and the number of the draw change. -/
theorem iterate_endCycle (n : Nat) (s : State) :
    ∃ dt st k, State.endCycle^[n] s = { s with dt := dt, st := st, drawIndex := k } ∧
      dt.toNat = s.dt.toNat - n ∧ st.toNat = s.st.toNat - n := by
  induction n with
  | zero => exact ⟨s.dt, s.st, s.drawIndex, rfl, rfl, rfl⟩
  | succ n ih =>
    obtain ⟨dt, st, k, hs, hdt, hst⟩ := ih
    refine ⟨decayTimer dt, decayTimer st, k + 1, ?_, ?_, ?_⟩
    · rw [Function.iterate_succ_apply', hs]
      rfl
    · rw [toNat_decayTimer, hdt, Nat.sub_sub]
    · rw [toNat_decayTimer, hst, Nat.sub_sub]

/-- Settles O55, by induction on the number of steps: each is the end of a cycle, and the wait goes on. -/
theorem stalledWaitOnlyRunsTheTimersDown : Obligations.StalledWaitOnlyRunsTheTimersDown := by
  unfold Obligations.StalledWaitOnlyRunsTheTimersDown
  intro n x s hh hf hfetch hk
  have hrun := run_of_waiting n (⟨(runState_eq_running s).2 ⟨hh, hf⟩, hfetch, hk⟩ : Waiting x s)
  obtain ⟨dt, st, k, hs, hdt, hst⟩ := iterate_endCycle n s
  rw [hs] at hrun
  refine ⟨_, hrun, rfl, fun _ _ => rfl, hdt, hst, fun p hp => ?_⟩
  cases p with
  | delayTimer | soundTimer => exact absurd (by simp) hp
  | memory | stackSlots | keypad => exact fun _ => rfl
  | framebuffer => exact fun _ _ => rfl
  | _ => rfl

/-! The events. -/

/-- Settles O56: the fields are read off the record updates; a halted machine has no step. -/
theorem hostEventsTouchOnlyTheirField : Obligations.HostEventsTouchOnlyTheirField := by
  unfold Obligations.HostEventsTouchOnlyTheirField
  refine fun s k p => ⟨⟨?line, fun j hj => ?others, rfl⟩, ⟨rfl, rfl⟩, rfl, rfl, rfl, fun t ht => ?noStep⟩
  case line => rw [keyLine_keyEvent, if_pos rfl]
  case others => rw [keyLine_keyEvent, if_neg hj.symm]
  case noStep =>
    obtain ⟨⟨hh, -⟩, -⟩ := step_cases ht
    cases hh

/-! The loads. -/

/-- An image written at its base: its bytes in place, every other byte as before. -/
theorem read_writeBytes_image (m : Memory) (base : Nat) (image : List Byte) :
    (∀ k (h : k < image.length), (m.writeBytes base image).read (base + k) = image[k]) ∧
    (∀ a, a < base ∨ base + image.length ≤ a → (m.writeBytes base image).read a = m.read a) := by
  refine ⟨fun k h => ?inside, fun a ha => ?outside⟩
  case inside =>
    rw [Memory.read_writeBytes, dif_pos (by omega)]
    simp only [Nat.add_sub_cancel_left]
  case outside => rw [Memory.read_writeBytes, dif_neg (by omega)]

/-- Settles O57, from what a block write leaves at every address. -/
theorem loadsCopyImagesOfLegalSize : Obligations.LoadsCopyImagesOfLegalSize := by
  unfold Obligations.LoadsCopyImagesOfLegalSize
  intro s image
  obtain ⟨hfontIn, hfontOut⟩ := read_writeBytes_image s.mem 0x050 image
  obtain ⟨hprogIn, hprogOut⟩ := read_writeBytes_image s.mem 0x200 image
  exact ⟨fun h => ⟨_, loadFont_ok s h, hfontIn, hfontOut, rfl⟩, loadFont_error s,
    fun h => ⟨_, loadProgram_ok s h, hprogIn, hprogOut, rfl⟩, loadProgram_error s⟩

/-- Block writes to separate ranges of memory commute: both memories are canonical and read alike. -/
theorem writeBytes_comm {m : Memory} (hm : m.wf = true) {a b : Nat} {as bs : List Byte} (hab : a + as.length ≤ b)
    (hb : b + bs.length ≤ 0x1000) : (m.writeBytes a as).writeBytes b bs = (m.writeBytes b bs).writeBytes a as := by
  have hwa : ∀ {m : Memory}, m.wf = true → (m.writeBytes a as).wf = true :=
    fun h => Memory.wf_writeBytes h as (by omega)
  have hwb : ∀ {m : Memory}, m.wf = true → (m.writeBytes b bs).wf = true :=
    fun h => Memory.wf_writeBytes h bs (by omega)
  refine Memory.ext_of_wf (hwb (hwa hm)) (hwa (hwb hm)) fun k => ?_
  simp only [Memory.read_writeBytes]
  by_cases hk : b ≤ k ∧ k - b < bs.length
  · rw [dif_pos hk, dif_neg (by omega), dif_pos hk]
  · simp only [dif_neg hk]

/-- Settles O58: the font ends below the program's base, and the program within memory. -/
theorem launchDoesNotDependOnLoadOrder : Obligations.LaunchDoesNotDependOnLoadOrder := by
  unfold Obligations.LaunchDoesNotDependOnLoadOrder
  intro font program hf hp
  refine ⟨_, Invariant.launch_ok hf hp, ?_⟩
  rw [writeBytes_comm rfl (by omega) (by omega), loadProgram_ok _ hp]
  exact loadFont_ok _ hf

/-! The contract. -/

section Perform
variable {b : Block}

theorem perform_cycle_ok (hf : b.fontLoaded = true) (hp : b.programLoaded = true) (hl : b.loadFailed = none) {t : State}
    (ht : step b.machine = .next t) : b.perform .cycle = some { b with machine := t, cycled := true } := by
  simp [Block.perform, hf, hp, hl, ht]

/-- A cycle is performed only with both loads, no failed one, and a running machine. -/
theorem perform_cycle_none (h : b.fontLoaded = false ∨ b.programLoaded = false ∨ b.loadFailed ≠ none ∨
    b.machine.halted = true ∨ b.machine.fault ≠ none) : b.perform .cycle = none := by
  cases hc : b.perform .cycle with
  | none => rfl
  | some c =>
    obtain ⟨_, hop, -⟩ | ⟨_, hop, -⟩ | ⟨-, hfont, hprog, hload, s, hs, -⟩ | ⟨_, _, hop, -⟩ | ⟨hop, -⟩ | ⟨hop, -⟩ :=
      perform_cases hc
    case inr.inr.inl =>
      obtain ⟨⟨hhalt, hfault⟩, -⟩ := step_cases hs
      simp [hfont, hprog, hload, hhalt, hfault] at h
    all_goals cases hop

/-- A load before the first cycle answers what the machine's load answers, put back into the block. -/
theorem perform_loadFont (hc : b.cycled = false) (image : List Byte) : b.perform (.loadFont image) =
    some (b.afterLoad (fun s => { b with machine := s, fontLoaded := true }) (b.machine.loadFont image)) := by
  simp [Block.perform, hc]

theorem perform_loadProgram (hc : b.cycled = false) (image : List Byte) : b.perform (.loadProgram image) =
    some (b.afterLoad (fun s => { b with machine := s, programLoaded := true }) (b.machine.loadProgram image)) := by
  simp [Block.perform, hc]

/-- There is no load after the first cycle. -/
theorem perform_load_none (hc : b.cycled = true) (image : List Byte) :
    b.perform (.loadFont image) = none ∧ b.perform (.loadProgram image) = none := by simp [Block.perform, hc]

end Perform

/-- Settles O59: the loads, the cycle, then the operations that are always performed. -/
theorem hostOperationsKeepTheContract : Obligations.HostOperationsKeepTheContract := by
  unfold Obligations.HostOperationsKeepTheContract
  intro b image k p
  refine ⟨fun hc => perform_load_none hc image,
    fun hc => ⟨fun s hs => ?font, fun s hs => ?program, fun e he => ?fontError, fun e he => ?programError⟩,
    perform_cycle_none, fun hf hp hl hh hfault => ?cycle, rfl, rfl, rfl, rfl, rfl, rfl, rfl⟩
  case font | fontError => rw [perform_loadFont hc, ‹b.machine.loadFont image = _›]; rfl
  case program | programError => rw [perform_loadProgram hc, ‹b.machine.loadProgram image = _›]; rfl
  case cycle =>
    obtain ⟨t, ht⟩ := step_of_running hh hfault
    exact ⟨t, ht, perform_cycle_ok hf hp hl ht⟩

end Sys2Proof.Proofs.Boundary

/-! SUPPORT. Control flow and the ALU, instruction by instruction (41_control_flow, 42_alu): the handler's answer gives
the result, and its frame is that of every completed cycle. -/

namespace Sys2Proof.Proofs.ControlAlu

open Sys2Proof.Machine Sys2Proof.Laws Sys2Proof.Proofs.Frame

/-! The patterns of 30_encoding R76, the registers written as numbers. -/

theorem wordXKK_pattern (t : Nibble) (x : RegIdx) (kk : Byte) :
    wordXKK t x kk = (t ++ BitVec.ofNat 4 x.val ++ kk : BitVec 16) := by
  rw [ofNat_val_regIdx]
  rfl

theorem wordXYN_pattern (t : Nibble) (x y : RegIdx) (n : Nibble) :
    wordXYN t x (regBits y) n = (t ++ BitVec.ofNat 4 x.val ++ BitVec.ofNat 4 y.val ++ n : BitVec 16) := by
  rw [ofNat_val_regIdx, ofNat_val_regIdx]
  rfl

section Completes
variable {i : Instr} {s u : State} {R : State → Prop}

/-- A cycle that completes, with what its handler's state gives and the frame of its instruction. -/
theorem completes (h : handlerOf i s.advance = .ok u) (hr : R u.endCycle) :
    ∃ t, exec i s = .next t ∧ R t ∧ RegsKeptBut (MayWriteReg · i) s t ∧ LeavesAllBut (writes i) s t :=
  ⟨_, exec_ok h, hr, regsKeptBut_mayWrite h, leavesAllBut_writes h⟩

/-- The same of an instruction that leaves `pc` to the cycle's advance. -/
theorem completes_next (h : handlerOf i s.advance = .ok u) (hpc : ¬ MayWritePc i) (hr : R u.endCycle) :
    ∃ t, exec i s = .next t ∧ R t ∧ t.pc = s.pc + 2#16 ∧ RegsKeptBut (MayWriteReg · i) s t ∧
      LeavesAllBut (writes i) s t :=
  ⟨_, exec_ok h, hr, pc_endCycle h hpc, regsKeptBut_mayWrite h, leavesAllBut_writes h⟩

end Completes

/-! Control flow. -/

/-- A skip goes on at the instruction's address + 4 (41_control_flow R110). -/
theorem pc_skipIf (c : Bool) (s : State) :
    (skipIf c s.advance).endCycle.pc = if c = true then s.pc + 4#16 else s.pc + 2#16 := by
  cases c
  · rfl
  · exact BitVec.add_assoc s.pc 2#16 2#16

theorem pc_skipIf_eq (a b : Byte) (s : State) :
    (skipIf (a == b) s.advance).endCycle.pc = if a = b then s.pc + 4#16 else s.pc + 2#16 := by
  rw [pc_skipIf]
  simp only [beq_iff_eq]

theorem pc_skipIf_ne (a b : Byte) (s : State) :
    (skipIf (a != b) s.advance).endCycle.pc = if a = b then s.pc + 2#16 else s.pc + 4#16 := by
  rw [pc_skipIf]
  simp only [bne_iff_ne, ite_not, ne_eq]

/-- Settles O22: the handler puts the address, widened to 16 bits, into `pc`. -/
theorem jumpGoesToItsTarget : Obligations.JumpGoesToItsTarget := by
  unfold Obligations.JumpGoesToItsTarget
  refine fun nnn s => ⟨rfl, DispatchKey.jp nnn, completes (i := .jp nnn) rfl ?_⟩
  show (nnn.setWidth 16).toNat = nnn.toNat
  exact BitVec.toNat_setWidth_of_le (by decide)

/-- Settles O23: with a slot left the handler pushes the advanced `pc`, else it raises. -/
theorem callPushesAndJumps : Obligations.CallPushesAndJumps := by
  unfold Obligations.CallPushesAndJumps
  refine fun nnn s => ⟨fun h => ?push, fun h => faults_of_raise (dif_neg ?full)⟩
  case full =>
    show ¬ s.sp.toNat < 16
    omega
  case push =>
    have hh : handlerOf (.call nnn) s.advance = .ok _ := dif_pos h
    refine ⟨_, exec_ok hh, ?top, fun j hj => ?others, ?sp, ?pc, regsKeptBut_mayWrite hh, leavesAllBut_writes hh⟩
    case top => exact Vector.getElem_set_self h
    case others => exact Vector.getElem_set_ne h j.isLt hj.symm
    case sp =>
      show (s.sp + 1#8).toNat = s.sp.toNat + 1
      bv_omega
    case pc => exact BitVec.toNat_setWidth_of_le (by decide)

/-- Settles O24: with a slot in use the handler jumps to it, else it raises. -/
theorem returnPopsAndJumps : Obligations.ReturnPopsAndJumps := by
  unfold Obligations.ReturnPopsAndJumps
  refine fun s => ⟨fun j hj => ?pop, fun h => faults_of_raise (dif_neg ?empty)⟩
  case empty =>
    show ¬ (0 < s.sp.toNat ∧ s.sp.toNat ≤ 16)
    omega
  case pop =>
    have hsp : 0 < s.sp.toNat ∧ s.sp.toNat ≤ 16 := by omega
    have hh : handlerOf .ret s.advance = .ok _ := dif_pos hsp
    refine ⟨_, exec_ok hh, ?pc, ?sp, regsKeptBut_mayWrite hh, leavesAllBut_writes hh⟩
    case pc =>
      refine congrArg s.stackSlot (Fin.ext ?_)
      show s.sp.toNat - 1 = j.val
      omega
    case sp =>
      show (s.sp - 1#8).toNat = j.val
      bv_omega

/-- Settles O25: the handler is the skip on equality. -/
theorem skipIfEqualToImmediate : Obligations.SkipIfEqualToImmediate := by
  unfold Obligations.SkipIfEqualToImmediate
  exact fun x kk s => ⟨wordXKK_pattern _ x kk, DispatchKey.seImm x kk,
    completes (i := .seImm x kk) rfl (pc_skipIf_eq (s.reg x) kk s)⟩

/-- Settles O26: the handler is the skip on a difference. -/
theorem skipIfNotEqualToImmediate : Obligations.SkipIfNotEqualToImmediate := by
  unfold Obligations.SkipIfNotEqualToImmediate
  exact fun x kk s => ⟨wordXKK_pattern _ x kk, DispatchKey.sneImm x kk,
    completes (i := .sneImm x kk) rfl (pc_skipIf_ne (s.reg x) kk s)⟩

/-- Settles O27: the handler is the skip on equality, and the ignored nibble is in the word alone. -/
theorem skipIfRegistersEqual : Obligations.SkipIfRegistersEqual := by
  unfold Obligations.SkipIfRegistersEqual
  exact fun x y low s => ⟨wordXYN_pattern _ x y low, DispatchKey.seReg x y low,
    completes (i := .seReg x y low) rfl (pc_skipIf_eq (s.reg x) (s.reg y) s)⟩

/-- A 9xyN word with N not 0 has no instruction (30_encoding R78). -/
theorem decodeWord_9xyN (x y : RegIdx) {n : Nibble} (hn : n ≠ 0#4) :
    decodeWord (wordXYN 0x9#4 x (regBits y) n) = none := by
  rw [Codec.decodeWord_eq_none, dispatchId_alu _ _ _ _ rfl]
  exact (Codec.aluId9_absent n).2 hn

/-- Settles O28: the handler is the skip on a difference, and a word with another low nibble has no id of
the table. -/
theorem skipIfRegistersDiffer : Obligations.SkipIfRegistersDiffer := by
  unfold Obligations.SkipIfRegistersDiffer
  refine fun x y s => ⟨wordXYN_pattern _ x y _, DispatchKey.sneReg x y, fun n hn => ?_,
    completes (i := .sneReg x y) rfl (pc_skipIf_ne (s.reg x) (s.reg y) s)⟩
  rw [← wordXYN_pattern]
  exact decodeWord_9xyN x y hn

/-- Settles O29: at 16 bits the sum of a byte and an address does not wrap. -/
theorem indexedJumpAddsV0 : Obligations.IndexedJumpAddsV0 := by
  unfold Obligations.IndexedJumpAddsV0
  refine fun nnn s => completes (i := .jpV0 nnn) rfl ?_
  show (narrow16 ((s.reg 0).toNat + nnn.toNat)).toNat = _
  rw [narrow16, BitVec.toNat_ofNat]
  omega

/-! The ALU. -/

/-- Settles O30: the register reads as it was written. -/
theorem loadImmediateWritesTheByte : Obligations.LoadImmediateWritesTheByte := by
  unfold Obligations.LoadImmediateWritesTheByte
  exact fun x kk s => ⟨wordXKK_pattern _ x kk, DispatchKey.ldImm x kk,
    completes_next (i := .ldImm x kk) rfl id (State.reg_setReg_self _ x kk)⟩

/-- Settles O31: the register reads as the sum, narrowed to a byte. -/
theorem addImmediateWrapsSilently : Obligations.AddImmediateWrapsSilently := by
  unfold Obligations.AddImmediateWrapsSilently
  refine fun x kk s => ⟨wordXKK_pattern _ x kk, DispatchKey.addImm x kk, completes_next (i := .addImm x kk) rfl id ?_⟩
  rw [State.reg_endCycle, State.reg_setReg_self, toNat_addBytes, State.reg_advance]

/-- Settles O32: the register reads as the other one did. -/
theorem copyRegisterCopies : Obligations.CopyRegisterCopies := by
  unfold Obligations.CopyRegisterCopies
  exact fun x y s => ⟨wordXYN_pattern _ x y _, DispatchKey.ldReg x y,
    completes_next (i := .ldReg x y) rfl id (State.reg_setReg_self _ x (s.reg y))⟩

/-- Settles O33, each operation by its own bits. -/
theorem logicOperationsWriteOnlyVx : Obligations.LogicOperationsWriteOnlyVx := by
  unfold Obligations.LogicOperationsWriteOnlyVx
  refine fun x y s => ⟨wordXYN_pattern _ x y _, wordXYN_pattern _ x y _, wordXYN_pattern _ x y _, DispatchKey.orReg x y,
    DispatchKey.andReg x y, DispatchKey.xorReg x y, completes_next (i := .orReg x y) rfl id fun b => ?or,
    completes_next (i := .andReg x y) rfl id fun b => ?and, completes_next (i := .xorReg x y) rfl id fun b => ?xor⟩
  all_goals rw [State.reg_endCycle, State.reg_setReg_self]
  case or => exact BitVec.getLsbD_or
  case and => exact BitVec.getLsbD_and
  case xor => exact BitVec.getLsbD_xor

/-! The instructions with a flag: VF first, then the result over it where x is F (42_alu R143). -/

section Flag
variable (t : State) (f : Byte) (x : RegIdx) (res : State → Byte)

/-- The result stands in Vx, computed with the flag in VF already. -/
theorem reg_flagThenResult_self : (flagThenResult t f x res).endCycle.reg x = res (t.setReg vf f) := by
  rw [State.reg_endCycle, flagThenResult_reg, if_pos rfl]

/-- The flag stands in VF, unless the result is written over it. -/
theorem reg_flagThenResult_vf {x : RegIdx} (hx : x ≠ 15) : (flagThenResult t f x res).endCycle.reg 15 = f := by
  rw [State.reg_endCycle, flagThenResult_reg, if_neg hx, if_pos (show vf = 15 from rfl)]

/-- The operands as the flag leaves them. -/
theorem toNat_reg_setReg_vf (j : RegIdx) :
    ((t.setReg vf f).reg j).toNat = if j = 15 then f.toNat else (t.reg j).toNat := by
  rw [State.reg_setReg, vf, apply_ite BitVec.toNat]
  simp only [eq_comm]

theorem toNat_subBytes_setReg_vf (a b : RegIdx) :
    ((subBytes ((t.setReg vf f).reg a) ((t.setReg vf f).reg b)).toNat : Int) =
      ((if a = 15 then (f.toNat : Int) else ((t.reg a).toNat : Int)) -
        (if b = 15 then (f.toNat : Int) else ((t.reg b).toNat : Int))) % 256 := by
  rw [toNat_subBytes, toNat_reg_setReg_vf, toNat_reg_setReg_vf]
  push_cast
  rfl

theorem toNat_greaterFlag (a b : Byte) : (greaterFlag a b).toNat = if a.toNat > b.toNat then 1 else 0 := by
  rw [greaterFlag, toNat_flagByte]
  simp only [decide_eq_true_eq]

end Flag

/-- Settles O34: the result does not read the registers that the flag left. -/
theorem addRegistersCarriesIntoVF : Obligations.AddRegistersCarriesIntoVF := by
  unfold Obligations.AddRegistersCarriesIntoVF
  intro x y s
  have hh : handlerOf (.addReg x y) s.advance = .ok _ := rfl
  refine ⟨wordXYN_pattern _ x y _, DispatchKey.addReg x y, _, exec_ok hh, ?sum, fun hx => ?carry, pc_endCycle hh id,
    fun j hj => regsKeptBut_mayWrite hh j (hj ∘ Or.symm), leavesAllBut_writes hh⟩
  case sum =>
    rw [reg_flagThenResult_self]
    exact toNat_addBytes _ _
  case carry =>
    rw [reg_flagThenResult_vf _ _ _ hx]
    simp [carryFlag, flagByte]

/-- Settles O35: the difference reads the registers that the flag left. -/
theorem subtractionsFlagStrictlyFirst : Obligations.SubtractionsFlagStrictlyFirst := by
  unfold Obligations.SubtractionsFlagStrictlyFirst
  intro x y s
  have hsub : handlerOf (.subReg x y) s.advance = .ok _ := rfl
  have hsubn : handlerOf (.subnReg x y) s.advance = .ok _ := rfl
  refine ⟨⟨_, exec_ok hsub, ⟨_, toNat_greaterFlag (s.reg x) (s.reg y), ?sub, fun hx => ?subFlag⟩, pc_endCycle hsub id,
      fun j hj => regsKeptBut_mayWrite hsub j (hj ∘ Or.symm), leavesAllBut_writes hsub⟩,
    ⟨_, exec_ok hsubn, ⟨_, toNat_greaterFlag (s.reg y) (s.reg x), ?subn, fun hx => ?subnFlag⟩, pc_endCycle hsubn id,
      fun j hj => regsKeptBut_mayWrite hsubn j (hj ∘ Or.symm), leavesAllBut_writes hsubn⟩⟩
  case sub =>
    rw [reg_flagThenResult_self]
    exact toNat_subBytes_setReg_vf s.advance _ x y
  case subn =>
    rw [reg_flagThenResult_self]
    exact toNat_subBytes_setReg_vf s.advance _ y x
  case subFlag | subnFlag =>
    rw [reg_flagThenResult_vf _ _ _ hx]
    rfl

/-- Settles O36: with x = F the bit shifted out is itself shifted. -/
theorem shiftsPutTheLostBitIntoVF : Obligations.ShiftsPutTheLostBitIntoVF := by
  unfold Obligations.ShiftsPutTheLostBitIntoVF
  intro x g s
  have hr : handlerOf (.shr x g) s.advance = .ok _ := rfl
  have hl : handlerOf (.shl x g) s.advance = .ok _ := rfl
  refine ⟨⟨_, exec_ok hr, fun hx => ⟨?shr, ?shrFlag⟩, ?shrVf, pc_endCycle hr id,
      fun j hj => regsKeptBut_mayWrite hr j (hj ∘ Or.symm), leavesAllBut_writes hr⟩,
    ⟨_, exec_ok hl, fun hx => ⟨?shl, ?shlFlag⟩, ?shlVf, pc_endCycle hl id,
      fun j hj => regsKeptBut_mayWrite hl j (hj ∘ Or.symm), leavesAllBut_writes hl⟩⟩
  case shr => rw [reg_flagThenResult_self, toNat_shrByte, toNat_reg_setReg_vf, if_neg hx, State.reg_advance]
  case shrFlag => rw [reg_flagThenResult_vf _ _ _ hx, toNat_shrFlag, State.reg_advance]
  case shrVf =>
    rintro rfl
    rw [reg_flagThenResult_self, toNat_shrByte, toNat_reg_setReg_vf, if_pos rfl, toNat_shrFlag]
    omega
  case shl => rw [reg_flagThenResult_self, toNat_shlByte, toNat_reg_setReg_vf, if_neg hx, State.reg_advance]
  case shlFlag => rw [reg_flagThenResult_vf _ _ _ hx, toNat_shlFlag, State.reg_advance]
  case shlVf =>
    rintro rfl
    rw [reg_flagThenResult_self, toNat_shlByte, toNat_reg_setReg_vf, if_pos rfl, toNat_shlFlag, State.reg_advance]
    split <;> omega

/-- Settles O37: a mask sets no bit. -/
theorem randomByteIsMasked : Obligations.RandomByteIsMasked := by
  unfold Obligations.RandomByteIsMasked
  intro x kk s
  have hh : handlerOf (.rnd x kk) s.advance = .ok _ := rfl
  refine ⟨_, exec_ok hh, State.reg_setReg_self _ x _, ?_, pc_endCycle hh id, regsKeptBut_mayWrite hh,
    leavesAllBut_writes hh⟩
  rw [State.reg_endCycle, State.reg_setReg_self, BitVec.toNat_and]
  exact Nat.and_le_right

end Sys2Proof.Proofs.ControlAlu

/-! SUPPORT. The index register, the memory block, the timers and the keypad, instruction by instruction
(43_index_memory, 45_timers_keypad). -/

namespace Sys2Proof.Proofs.MemoryIo

open Sys2Proof.Machine Sys2Proof.Laws Sys2Proof.Proofs.Frame Sys2Proof.Proofs.ControlAlu

/-! The index register. -/

/-- Settles O38: the address is widened to 16 bits. -/
theorem loadIndexWritesTheAddress : Obligations.LoadIndexWritesTheAddress := by
  unfold Obligations.LoadIndexWritesTheAddress
  refine fun nnn s => ⟨rfl, DispatchKey.ldI nnn, completes_next (i := .ldI nnn) rfl id ?_⟩
  exact BitVec.toNat_setWidth_of_le (by decide)

/-- Settles O39: a sum of 16 bits is not reduced. -/
theorem addToIndexOrOverflow : Obligations.AddToIndexOrOverflow := by
  unfold Obligations.AddToIndexOrOverflow
  refine fun x s => ⟨fun h => completes_next (i := .addI x) (if_neg (Nat.not_lt.2 h)) id ?_,
    fun h => faults_of_raise (if_pos h)⟩
  show (narrow16 (s.i.toNat + (s.reg x).toNat)).toNat = _
  rw [narrow16, BitVec.toNat_ofNat]
  omega

/-- Settles O40: the glyph of a digit up to 15 lies far below 2^16. -/
theorem pointAtGlyphOrFault : Obligations.PointAtGlyphOrFault := by
  unfold Obligations.PointAtGlyphOrFault
  refine fun x s => ⟨fun h => completes_next (i := .ldF x) (if_neg (Nat.not_lt.2 h)) id ?_,
    fun h => faults_of_raise (if_pos h)⟩
  show (narrow16 (0x050 + (s.reg x).toNat * 5)).toNat = _
  rw [narrow16, BitVec.toNat_ofNat]
  omega

/-! The memory block. -/

/-- A block of bytes stored at `I`: byte `k` of it, and every other byte of memory. -/
theorem read_storedBlock {s : State} {bs : List Byte} (k : Nat) (h : k < bs.length) :
    (s.mem.writeBytes s.i.toNat bs).read (s.i.toNat + k) = bs[k] :=
  (Boundary.read_writeBytes_image s.mem s.i.toNat bs).1 k h

theorem read_aroundBlock {s : State} {bs : List Byte} {a : Nat} (h : a < s.i.toNat ∨ s.i.toNat + bs.length ≤ a) :
    (s.mem.writeBytes s.i.toNat bs).read a = s.mem.read a :=
  (Boundary.read_writeBytes_image s.mem s.i.toNat bs).2 a h

/-- LD B,Vx with the block in memory. -/
theorem handlerOf_ldB {x : RegIdx} {s : State} (h : s.i.toNat + 2 ≤ 0xFFF) : handlerOf (.ldB x) s.advance =
    .ok { s.advance with mem := s.mem.writeBytes s.i.toNat (bcdDigits (s.reg x)) } :=
  withBlock_ok _ (.inr h)

/-- LD [I],Vx with the block in memory. -/
theorem handlerOf_ldMemVx {x : RegIdx} {s : State} (h : s.i.toNat + x.val ≤ 0xFFF) :
    handlerOf (.ldMemVx x) s.advance =
      .ok { s.advance with mem := s.mem.writeBytes s.i.toNat (s.regsUpTo x) } :=
  withBlock_ok _ (.inr h)

/-- Settles O41: the block check, then the three digits of the stored block. -/
theorem storeDecimalDigits : Obligations.StoreDecimalDigits := by
  unfold Obligations.StoreDecimalDigits
  intro x s
  refine ⟨fun h => ?store, fun h => faults_of_raise (withBlock_raise _ (not_or.2 ⟨by decide, Nat.not_le.2 h⟩))⟩
  have hh := handlerOf_ldB (x := x) h
  have hlen : (bcdDigits (s.reg x)).length = 3 := length_bcdDigits _
  have hlt := (s.reg x).isLt
  refine ⟨_, exec_ok hh, ?hundreds, ?tens, ?ones, fun a ha => read_aroundBlock (by omega), pc_endCycle hh id,
    regsKeptBut_mayWrite hh, leavesAllBut_writes hh⟩
  case hundreds =>
    refine (congrArg BitVec.toNat (read_storedBlock (bs := bcdDigits (s.reg x)) 0 (by omega))).trans ?_
    show (narrow8 ((s.reg x).toNat / 100)).toNat = _
    rw [narrow8, BitVec.toNat_ofNat]
    omega
  case tens =>
    refine (congrArg BitVec.toNat (read_storedBlock (bs := bcdDigits (s.reg x)) 1 (by omega))).trans ?_
    show (narrow8 ((s.reg x).toNat / 10 % 10)).toNat = _
    rw [narrow8, BitVec.toNat_ofNat]
    omega
  case ones =>
    refine (congrArg BitVec.toNat (read_storedBlock (bs := bcdDigits (s.reg x)) 2 (by omega))).trans ?_
    show (narrow8 ((s.reg x).toNat % 10)).toNat = _
    rw [narrow8, BitVec.toNat_ofNat]
    omega

/-- A block of V0 to Vx that passes 0xFFF. -/
theorem not_blockInMemory_regs {x : RegIdx} {s : State} (h : 0xFFF < s.i.toNat + x.val) :
    ¬ BlockInMemory s.advance (x.val + 1) := Steps.not_blockInMemory_iff.2 ⟨Nat.succ_pos _, h⟩

/-- Settles O42: the block check, then the stored block byte by byte. -/
theorem storeRegistersAtIndex : Obligations.StoreRegistersAtIndex := by
  unfold Obligations.StoreRegistersAtIndex
  intro x s
  refine ⟨fun h => ?store, fun h => faults_of_raise (withBlock_raise _ (not_blockInMemory_regs h))⟩
  have hh := handlerOf_ldMemVx h
  have hlen : (s.regsUpTo x).length = x.val + 1 := length_regsUpTo s x
  refine ⟨_, exec_ok hh, fun k hk => ?stored, fun a ha => read_aroundBlock (by omega), pc_endCycle hh id,
    regsKeptBut_mayWrite hh, leavesAllBut_writes hh⟩
  have hkx : k.val ≤ x.val := hk
  have hk : k.val < (s.regsUpTo x).length := by omega
  exact (read_storedBlock k.val hk).trans (getElem_regsUpTo s x k.val hk)

/-- Settles O43: the block check, then the loaded registers one by one. -/
theorem loadRegistersFromIndex : Obligations.LoadRegistersFromIndex := by
  unfold Obligations.LoadRegistersFromIndex
  intro x s
  refine ⟨fun h => ?load, fun h => faults_of_raise (withBlock_raise _ (not_blockInMemory_regs h))⟩
  have hh : handlerOf (.ldVxMem x) s.advance = .ok _ := withBlock_ok _ (.inr h)
  have hlen : (s.mem.readBytes s.i.toNat (x.val + 1)).length = x.val + 1 := Memory.length_readBytes _ _ _
  refine ⟨_, exec_ok hh, fun k hk => ?loaded, pc_endCycle hh id, regsKeptBut_mayWrite hh, leavesAllBut_writes hh⟩
  have hk : k.val ≤ x.val := hk
  rw [State.reg_endCycle]
  refine (setRegs_reg (s.mem.readBytes s.i.toNat (x.val + 1)) s.advance 0 (by omega) k).trans ?_
  rw [dif_pos (by omega), Memory.getElem_readBytes]
  rfl

/-- The registers as a list, in both spellings. -/
theorem regsUpTo_eq_take (s : State) (x : RegIdx) : s.regsUpTo x = ((List.finRange 16).map s.reg).take (x.val + 1) := by
  rw [State.regsUpTo]
  congr 1
  refine List.ext_getElem (by simp) fun k h1 h2 => ?_
  simp [State.reg]

/-- The fetch after a cycle that stored a block and only advanced `pc` (40_cycle R92; 20_memory R64). -/
theorem fetch_storedBlock {s u : State} {bs : List Byte} (hpc : s.pc.toNat + 3 ≤ 0xFFF)
    (hm : u.mem = s.mem.writeBytes s.i.toNat bs) (hu : u.pc = s.pc + 2#16) :
    u.fetch = some (byteOver s.mem s.i.toNat bs (s.pc.toNat + 2) ++ byteOver s.mem s.i.toNat bs (s.pc.toNat + 3)) := by
  have hadd : u.pc.toNat = s.pc.toNat + 2 := by rw [hu]; exact Invariant.toNat_add_two (by omega)
  have hread : ∀ a, u.mem.read a = byteOver s.mem s.i.toNat bs a := fun a => by
    rw [hm, Memory.read_writeBytes, byteOver]
  rw [State.fetch, hadd, hread, hread, if_neg (by rw [Config.lastAddr]; omega)]
  rfl

/-- Settles O44: both stores leave memory with the block in it and `pc` at the next word. -/
theorem storedWordIsFetchedNext : Obligations.StoredWordIsFetchedNext := by
  unfold Obligations.StoredWordIsFetchedNext
  refine fun x s hpc => ⟨fun h => ?regs, fun h => ?digits⟩
  case regs =>
    rw [← regsUpTo_eq_take]
    have hh := handlerOf_ldMemVx h
    exact ⟨_, exec_ok hh, fetch_storedBlock hpc rfl (pc_endCycle hh id)⟩
  case digits =>
    have hh := handlerOf_ldB (x := x) h
    exact ⟨_, exec_ok hh, fetch_storedBlock hpc rfl (pc_endCycle hh id)⟩

/-! The timers. -/

/-- Settles O49: the decay comes after the handler has read DT. -/
theorem readDelayTimerBeforeDecay : Obligations.ReadDelayTimerBeforeDecay := by
  unfold Obligations.ReadDelayTimerBeforeDecay
  exact fun x s => ⟨wordXKK_pattern _ x _, DispatchKey.ldVxDt x,
    completes_next (i := .ldVxDt x) rfl id (State.reg_setReg_self _ x s.dt)⟩

/-- Settles O50: the handler writes DT, then the cycle decays it. -/
theorem setDelayTimerThenDecay : Obligations.SetDelayTimerThenDecay := by
  unfold Obligations.SetDelayTimerThenDecay
  exact fun x s => ⟨wordXKK_pattern _ x _, DispatchKey.ldDtVx x,
    completes_next (i := .ldDtVx x) rfl id (toNat_decayTimer (s.reg x))⟩

/-- ST is heard exactly where it is not 0 (60_exceptions R227). -/
theorem soundActive_iff (t : State) : t.soundActive = true ↔ 0 < t.st.toNat := by
  rw [State.soundActive, bne_iff_ne, ne_eq, ← BitVec.toNat_inj]
  exact Nat.pos_iff_ne_zero.symm

/-- Settles O51: the handler writes ST, then the cycle decays it. -/
theorem setSoundTimerThenDecay : Obligations.SetSoundTimerThenDecay := by
  unfold Obligations.SetSoundTimerThenDecay
  intro x s
  have hh : handlerOf (.ldStVx x) s.advance = .ok _ := rfl
  have hst : (decayTimer (s.reg x)).toNat = (s.reg x).toNat - 1 := toNat_decayTimer (s.reg x)
  refine ⟨wordXKK_pattern _ x _, DispatchKey.ldStVx x, _, exec_ok hh, hst, (soundActive_iff _).trans ?_,
    pc_endCycle hh id, regsKeptBut_mayWrite hh, leavesAllBut_writes hh⟩
  show 0 < (decayTimer (s.reg x)).toNat ↔ _
  omega

/-! The keypad. -/

theorem keyLine_setKeyLine_of_ne {t : State} {j k : KeyIdx} (b : Bool) (h : j ≠ k) :
    (t.setKeyLine k b).keyLine j = t.keyLine j := by
  rw [State.keyLine_setKeyLine, if_neg h.symm]

/-- Settles O52: a pressed line is cleared beside the skip; a released one is left as it is. -/
theorem skipIfKeyPressedConsumes : Obligations.SkipIfKeyPressedConsumes := by
  unfold Obligations.SkipIfKeyPressedConsumes
  refine fun x s => ⟨fun k hk => ?line, fun h => faults_of_raise (withKey_raise h _)⟩
  cases hp : s.keyLine k with
  | true =>
    have hh : handlerOf (.skp x) s.advance = .ok (s.advance.advance.setKeyLine k false) :=
      (withKey_ok hk _).trans (congrArg _ (if_pos hp))
    exact ⟨_, exec_ok hh, BitVec.add_assoc s.pc 2#16 2#16, State.keyLine_setKeyLine_self _ k false,
      fun j hj => keyLine_setKeyLine_of_ne false hj, regsKeptBut_mayWrite hh, leavesAllBut_writes hh⟩
  | false =>
    have hh : handlerOf (.skp x) s.advance = .ok s.advance :=
      (withKey_ok hk _).trans (congrArg _ (if_neg (Bool.not_eq_true _ ▸ hp)))
    exact ⟨_, exec_ok hh, rfl, hp, fun _ _ => rfl, regsKeptBut_mayWrite hh, leavesAllBut_writes hh⟩

/-- Settles O53: a pressed line is cleared in place of the skip; a released one is left as it is. -/
theorem skipIfKeyNotPressedConsumes : Obligations.SkipIfKeyNotPressedConsumes := by
  unfold Obligations.SkipIfKeyNotPressedConsumes
  refine fun x s => ⟨fun k hk => ?line, fun h => faults_of_raise (withKey_raise h _)⟩
  cases hp : s.keyLine k with
  | true =>
    have hh : handlerOf (.sknp x) s.advance = .ok (s.advance.setKeyLine k false) :=
      (withKey_ok hk _).trans (congrArg _ (if_pos hp))
    exact ⟨_, exec_ok hh, rfl, State.keyLine_setKeyLine_self _ k false, fun j hj => keyLine_setKeyLine_of_ne false hj,
      regsKeptBut_mayWrite hh, leavesAllBut_writes hh⟩
  | false =>
    have hh : handlerOf (.sknp x) s.advance = .ok s.advance.advance :=
      (withKey_ok hk _).trans (congrArg _ (if_neg (Bool.not_eq_true _ ▸ hp)))
    exact ⟨_, exec_ok hh, BitVec.add_assoc s.pc 2#16 2#16, hp, fun _ _ => rfl, regsKeptBut_mayWrite hh,
      leavesAllBut_writes hh⟩

/-- Settles O54: the search finds the lowest line, or none, and then the cycle only ends. -/
theorem waitForKeyTakesTheLowest : Obligations.WaitForKeyTakesTheLowest := by
  unfold Obligations.WaitForKeyTakesTheLowest
  refine fun x s => ⟨fun k hk hlow => ?pressed, fun hnone => ?waiting⟩
  case pressed =>
    have hl : s.advance.lowestPressed = some k := (lowestPressed_eq_some _ k).2 ⟨hk, hlow⟩
    have hh : handlerOf (.ldVxK x) s.advance = .ok (s.advance.setReg x (narrow8 k.val)) := by
      rw [handlerOf, handleLdVxK, hl]
    refine ⟨_, exec_ok hh, ?number, rfl, regsKeptBut_mayWrite hh, leavesAllBut_writes hh⟩
    rw [State.reg_endCycle, State.reg_setReg_self, narrow8, BitVec.toNat_ofNat]
    omega
  case waiting =>
    exact ⟨_, Boundary.exec_ldVxK_of_waiting x hnone, rfl, fun _ _ => rfl,
      fun p _ => leftAlone_endCycle (by cases p <;> rfl)⟩

end Sys2Proof.Proofs.MemoryIo

/-! SUPPORT. The framebuffer: clearing it, drawing a sprite once and twice, and the number of cells on (44_display R171
to R174). -/

namespace Sys2Proof.Proofs.Screen

open Sys2Proof.Machine Sys2Proof.Proofs.Frame Sys2Proof.Proofs.ControlAlu

/-- Settles O45: the handler clears the framebuffer and writes nothing else. -/
theorem clearScreenTurnsAllCellsOff : Obligations.ClearScreenTurnsAllCellsOff := by
  unfold Obligations.ClearScreenTurnsAllCellsOff
  exact fun s => completes_next (i := .cls) (R := fun t => ∀ row col, t.fb.cell row col = false) rfl id cell_clear

section Draw
variable {x y : RegIdx} {n : Nibble} {s : State}

/-- DRW with the sprite in memory. -/
theorem handlerOf_drw (h : BlockInMemory s n.toNat) :
    handlerOf (.drw x y n) s.advance = .ok (drawSprite x y n s.advance) :=
  withBlock_ok _ h

/-- The cell after the draw (44_display R172). -/
theorem cell_drawSprite (x y : RegIdx) (n : Nibble) (t : State) (p : Pixel) : (drawSprite x y n t).fb.cell p.1 p.2 =
    if p ∈ drawnPixels t x y n then !t.fb.cell p.1 p.2 else t.fb.cell p.1 p.2 := by
  rw [drawSprite_fb]
  exact cell_drawPixels (nodup_drawnPixels t x y n) (t.fb, false) p

/-- VF after the draw: some cell of the sprite was on. -/
theorem vf_drawSprite_of_hit {t : State} (h : ∃ row col, SpriteSets t x y n row col ∧ t.fb.cell row col = true) :
    (drawSprite x y n t).reg 15 = 1#8 := by
  obtain ⟨row, col, hset, hon⟩ := h
  have hany : (drawnPixels t x y n).any (fun p => t.fb.cell p.1 p.2) = true :=
    List.any_eq_true.2 ⟨(row, col), (mem_drawnPixels t x y n row col).2 hset, hon⟩
  exact (drawSprite_vf t x y n).trans (congrArg flagByte hany)

/-- VF after the draw: all cells of the sprite were off. -/
theorem vf_drawSprite_of_noHit {t : State} (h : ∀ row col, SpriteSets t x y n row col → t.fb.cell row col = false) :
    (drawSprite x y n t).reg 15 = 0#8 := by
  have hany : (drawnPixels t x y n).any (fun p => t.fb.cell p.1 p.2) = false :=
    List.any_eq_false.2 fun p hp => Bool.not_eq_true _ ▸ h p.1 p.2 ((mem_drawnPixels t x y n p.1 p.2).1 hp)
  exact (drawSprite_vf t x y n).trans (congrArg flagByte hany)

/-- Settles O46: the cells by the pixels drawn, VF by those of them that were on. -/
theorem drawTogglesTheSpriteCells : Obligations.DrawTogglesTheSpriteCells := by
  unfold Obligations.DrawTogglesTheSpriteCells
  refine fun x y n s => ⟨fun h => ?draw, fun hn h => faults_of_raise (withBlock_raise _ ?passes)⟩
  case passes => exact Steps.not_blockInMemory_iff.2 ⟨hn, h⟩
  have hh := handlerOf_drw (x := x) (y := y) h
  have hcell := fun row col => cell_drawSprite x y n s.advance (row, col)
  refine ⟨_, exec_ok hh, fun row col hset => ?toggled, fun row col hset => ?kept, fun hhit => ?hit, fun hno => ?noHit,
    rfl, pc_endCycle hh id, regsKeptBut_mayWrite hh, leavesAllBut_writes hh⟩
  case toggled => exact (hcell row col).trans (if_pos ((mem_drawnPixels s x y n row col).2 hset))
  case kept => exact (hcell row col).trans (if_neg fun hm => hset ((mem_drawnPixels s x y n row col).1 hm))
  case hit => exact vf_drawSprite_of_hit (t := s.advance) hhit
  case noHit => exact vf_drawSprite_of_noHit (t := s.advance) hno

/-! Drawing twice. -/

/-- What the second draw's handler is given: the first draw done, VF put back, and `pc` advanced. -/
def redrawn (x y : RegIdx) (n : Nibble) (s : State) : State :=
  ((drawSprite x y n s.advance).endCycle.setReg 15 (s.reg 15)).advance

theorem reg_redrawn (j : RegIdx) : (redrawn x y n s).reg j = s.reg j := by
  rw [redrawn, State.reg_advance, State.reg_setReg]
  split
  · rename_i hj
    rw [hj]
  · rename_i hj
    exact (framedBy_drawSprite s.advance x y n).regs j (Ne.symm hj)

/-- The second draw has the sprite, the index and the origin of the first. -/
theorem drawnPixels_redrawn : drawnPixels (redrawn x y n s) x y n = drawnPixels s x y n := by
  rw [drawnPixels, reg_redrawn, reg_redrawn]
  rfl

theorem spriteSets_redrawn (row : Fin 32) (col : Fin 64) :
    SpriteSets (redrawn x y n s) x y n row col ↔ SpriteSets s x y n row col := by
  rw [← mem_drawnPixels, drawnPixels_redrawn, mem_drawnPixels]

theorem cell_redrawn (p : Pixel) : (redrawn x y n s).fb.cell p.1 p.2 =
    if p ∈ drawnPixels s x y n then !s.fb.cell p.1 p.2 else s.fb.cell p.1 p.2 :=
  cell_drawSprite x y n s.advance p

theorem cell_redrawn_of_set {row : Fin 32} {col : Fin 64} (h : SpriteSets s x y n row col) :
    (redrawn x y n s).fb.cell row col = !s.fb.cell row col :=
  (cell_redrawn (row, col)).trans (if_pos ((mem_drawnPixels s x y n row col).2 h))

/-- A cell toggled twice is as before. -/
theorem fb_drawSprite_redrawn : (drawSprite x y n (redrawn x y n s)).fb = s.fb := by
  refine framebuffer_ext fun row col => ?_
  have h := cell_drawSprite x y n (redrawn x y n s) (row, col)
  rw [drawnPixels_redrawn, cell_redrawn] at h
  refine h.trans ?_
  split
  · exact Bool.not_not _
  · rfl

/-- The second draw, from the state the first one leaves with VF put back. -/
theorem exec_redrawn (h : BlockInMemory s n.toNat) :
    exec (.drw x y n) ((drawSprite x y n s.advance).endCycle.setReg 15 (s.reg 15)) =
      .next (drawSprite x y n (redrawn x y n s)).endCycle :=
  exec_ok (withBlock_ok (t := redrawn x y n s) _ h)

theorem vf_redrawn_of_off (h : ∃ row col, SpriteSets s x y n row col ∧ s.fb.cell row col = false) :
    (drawSprite x y n (redrawn x y n s)).reg 15 = 1#8 := by
  obtain ⟨row, col, hset, hoff⟩ := h
  refine vf_drawSprite_of_hit ⟨row, col, (spriteSets_redrawn row col).2 hset, ?_⟩
  rw [cell_redrawn_of_set hset, hoff]
  rfl

theorem vf_redrawn_of_on (h : ∀ row col, SpriteSets s x y n row col → s.fb.cell row col = true) :
    (drawSprite x y n (redrawn x y n s)).reg 15 = 0#8 := by
  refine vf_drawSprite_of_noHit fun row col hset => ?_
  have hset := (spriteSets_redrawn row col).1 hset
  rw [cell_redrawn_of_set hset, h row col hset]
  rfl

end Draw

/-- Settles O47: the first draw has turned the cells of the sprite over, and the second finds them so. -/
theorem drawingTwiceRestoresTheScreen : Obligations.DrawingTwiceRestoresTheScreen := by
  unfold Obligations.DrawingTwiceRestoresTheScreen
  intro x y n s h
  refine ⟨(drawSprite x y n s.advance).endCycle, (drawSprite x y n (redrawn x y n s)).endCycle,
    exec_ok (handlerOf_drw h), exec_redrawn h, ?_⟩
  rw [State.endCycle_fb, State.reg_endCycle]
  exact ⟨fb_drawSprite_redrawn, vf_redrawn_of_off, vf_redrawn_of_on⟩

/-! The number of cells on. -/

section Count
variable {x y : RegIdx} {n : Nibble} {s : State}

/-- The cell that a bit of the sprite lands on (44_display R172). -/
def bitPixel (s : State) (x y : RegIdx) (b : Nat × Nat) : Pixel :=
  (Fin.ofNat 32 ((s.reg y).toNat % 32 + b.1), Fin.ofNat 64 ((s.reg x).toNat % 64 + b.2))

/-- No two bits of a sprite land on one cell: it has at most 15 rows of 8 bits. -/
theorem bitPixel_injOn : Set.InjOn (bitPixel s x y) (spriteBits s n) := by
  intro a ha b hb hab
  simp only [spriteBits, Finset.coe_filter, Finset.mem_product, Finset.mem_range, Set.mem_ofPred_eq] at ha hb
  simp only [bitPixel, Prod.mk.injEq, Fin.ext_iff, Fin.ofNat] at hab
  have hn := n.isLt
  exact Prod.ext (by omega) (by omega)

/-- The drawn cells are those of the set bits. -/
theorem toFinset_drawnPixels : (drawnPixels s x y n).toFinset = (spriteBits s n).image (bitPixel s x y) := by
  ext ⟨row, col⟩
  rw [List.mem_toFinset, mem_drawnPixels, Finset.mem_image]
  simp only [spriteBits, Finset.mem_filter, Finset.mem_product, Finset.mem_range, bitPixel, Prod.mk.injEq, Fin.ext_iff,
    Fin.ofNat]
  constructor
  · rintro ⟨r, c, hr, hc, hb, hrow, hcol⟩
    exact ⟨(r, c), ⟨⟨hr, hc⟩, hb⟩, hrow.symm, hcol.symm⟩
  · rintro ⟨⟨r, c⟩, ⟨⟨hr, hc⟩, hb⟩, hrow, hcol⟩
    exact ⟨r, c, hr, hc, hb, hrow.symm, hcol.symm⟩

/-- The hits are the set bits on the cells that are both drawn and on. -/
theorem image_spriteHits :
    (spriteHits s x y n).image (bitPixel s x y) = (drawnPixels s x y n).toFinset ∩ s.fb.onCells := by
  rw [toFinset_drawnPixels, Framebuffer.onCells, Finset.inter_filter, Finset.inter_univ, Finset.filter_image]
  rfl

/-- A draw turns over the drawn cells: those on are the symmetric difference. -/
theorem onCells_drawSprite (x y : RegIdx) (n : Nibble) (t : State) :
    (drawSprite x y n t).fb.onCells = symmDiff t.fb.onCells (drawnPixels t x y n).toFinset := by
  ext p
  simp only [Framebuffer.onCells, Finset.mem_symmDiff, Finset.mem_filter, Finset.mem_univ, true_and, List.mem_toFinset,
    cell_drawSprite]
  by_cases hp : p ∈ drawnPixels t x y n <;> simp [hp]

end Count

/-- The symmetric difference of two finite sets loses their common part twice. -/
theorem card_symmDiff_add {α : Type} [DecidableEq α] (a b : Finset α) :
    (symmDiff a b).card + 2 * (a ∩ b).card = a.card + b.card := by
  have ha := Finset.card_sdiff_add_card_inter a b
  have hb := Finset.card_sdiff_add_card_inter b a
  have hd : (symmDiff a b).card = (a \ b).card + (b \ a).card := Finset.card_union_of_disjoint disjoint_sdiff_sdiff
  rw [Finset.inter_comm] at hb
  omega

/-- Settles O48: the set bits are the drawn cells, the hits the drawn cells that were on, and the draw is their
symmetric difference. -/
theorem drawChangesCellCount : Obligations.DrawChangesCellCount := by
  unfold Obligations.DrawChangesCellCount
  intro x y n s h
  have hinj : Set.InjOn (bitPixel s x y) (spriteBits s n) := bitPixel_injOn
  have hsub : (spriteHits s x y n : Set (Nat × Nat)) ⊆ spriteBits s n := Finset.coe_subset.2 (Finset.filter_subset _ _)
  have hhits : (spriteHits s x y n).card = ((drawnPixels s x y n).toFinset ∩ s.fb.onCells).card := by
    rw [← image_spriteHits, Finset.card_image_of_injOn (hinj.mono hsub)]
  have hbits : (spriteBits s n).card = (drawnPixels s x y n).toFinset.card := by
    rw [toFinset_drawnPixels, Finset.card_image_of_injOn hinj]
  refine ⟨_, exec_ok (handlerOf_drw h), ?_⟩
  rw [hhits, hbits, Finset.inter_comm, ← card_symmDiff_add]
  exact congrArg (fun f => Finset.card f + _) (onCells_drawSprite x y n s.advance)

end Sys2Proof.Proofs.Screen
